-- ==== Sys2Proof/Word.lean ====
section
/-! DEFINITION. The word types of the block, which hold the widths the source fixes (spec/00_scope.md R6: DW, DIVW, TAGW, FSELW) and the values a floating-point
number of the conversion can take (spec/42_convert.md R81). -/

namespace Sys2Proof

/-- One byte of the input stream (R64) or the 8-bit magic tag (R6 TAGW). -/
abbrev Byte := BitVec 8

/-- A DivisorValue, a queue word, or a word on the register bus: DW = 32 bits (R6, R11, R37). -/
abbrev Word := BitVec 32

/-- The divisor field of CLKDIV and the low part of CLKCTL: DIVW = 24 bits (R6, R20). -/
abbrev Word24 := BitVec 24

/-- The function field of the target pin: FSELW = 3 bits (R6, R54). -/
abbrev PinFunction := BitVec 3

/-- The general-purpose input function, 0b000: the source's "cleared" (R8, R54). -/
def fselIn : PinFunction := 0#3

/-- A binary floating-point value: not a number, an infinity, or `(-1)^neg * man * 2^exp` (R81). A zero has a sign. -/
inductive Flt where
  | nan
  | inf (neg : Bool)
  | fin (neg : Bool) (man : Nat) (exp : Int)
deriving DecidableEq, Repr

/-- A binary floating-point format: `prec` bits of significand, and the least and the greatest exponent of its last place. -/
structure FloatFormat where
  prec : Nat
  minExp : Int
  maxExp : Int
deriving DecidableEq, Repr

end Sys2Proof
end

