-- ==== Sys2Proof/Syntax.lean ====
section
/-! DEFINITION. The operations of the block, one constructor per row of spec/opcode_table.json (spec/30_encoding.md R50), the names they
are built from (registers R19 and R21, control points R14 and R24), the bus words (R51 to R54), what selects an operation (R50), and the
stimulus notation (R63). -/

namespace Sys2Proof

/-- The four registers of the window, abstract ids without an address (R19, R21, R32; D15). -/
inductive Reg where
  | counter
  | clkctl
  | clkdiv
  | pinfsel
deriving DecidableEq, Repr

/-- `cp`, the thirteen positions of the sequencer (R14). -/
inductive ControlPoint where
  | w0 | e1 | e2 | e3 | e4 | e5 | s0 | s1 | s2 | x1 | x2 | x3 | done
deriving DecidableEq, Repr

/-- `pcp`, the three positions of the Producer (R24). -/
inductive ProducerPoint where
  | p0 | p1 | pdone
deriving DecidableEq, Repr

/-- The twenty operations (R50). An operation carries what R50 and its own rule call an operand and nothing else: the operand of SETDIV is
HELD and those of the register writer are constants (R57, R58). -/
inductive Instr where
  /-- PUSH d (R70). -/
  | push (d : Word)
  /-- PULL (R71). -/
  | pull
  /-- CONV s (R80): the sample is a signed integer; `Instr.wf` holds it to SAMPLE_W bits. -/
  | conv (s : Int)
  /-- PRODUCE (R83). `timedOut` says that the Producer takes the timeout step of R86 instead of its normal step (log 12). -/
  | produce (timedOut : Bool)
  /-- WAIT1 (R91). -/
  | wait1
  /-- RDCNT (R93). -/
  | rdcnt
  /-- WAITDL (R94). -/
  | waitdl
  /-- SETDIV (R95, R115). -/
  | setdiv
  /-- NEXT (R96). -/
  | next
  /-- SETHALT (R97). -/
  | sethalt
  /-- ENABLE (R110), the composite of four. -/
  | enable
  /-- FSEL_CLK (R111). -/
  | fselClk
  /-- CTL_RESET (R112). -/
  | ctlReset
  /-- CTL_ENABLE (R113). -/
  | ctlEnable
  /-- CTL_MODE (R114). -/
  | ctlMode
  /-- DISABLE (R116), the composite of two. -/
  | disable
  /-- CTL_OFF (R117). -/
  | ctlOff
  /-- FSEL_IN (R118). -/
  | fselIn
  /-- HALTREQ (R130). -/
  | haltreq
  /-- TICK (R135). -/
  | tick
deriving DecidableEq, Repr

/-- A write of the block on the register bus, with the fields of its word that are no constant of the operation (R52 to R54): the divisor
of W-DIV; for W-FSEL the other pins' bits, written back as read, with zeros at the target field. -/
inductive BusOp where
  | setdiv (d : Word24)
  | fselClk (others : Word)
  | fselIn (others : Word)
  | ctlReset
  | ctlEnable
  | ctlMode
  | ctlOff
deriving DecidableEq, Repr

/-- The operation that makes a bus write (R50). -/
def BusOp.instr : BusOp → Instr
  | .setdiv _ => .setdiv
  | .fselClk _ => .fselClk
  | .fselIn _ => .fselIn
  | .ctlReset => .ctlReset
  | .ctlEnable => .ctlEnable
  | .ctlMode => .ctlMode
  | .ctlOff => .ctlOff

/-- The register an operation's word is written to (R52 to R54). -/
def BusOp.reg : BusOp → Reg
  | .setdiv _ => .clkdiv
  | .fselClk _ => .pinfsel
  | .fselIn _ => .pinfsel
  | .ctlReset => .clkctl
  | .ctlEnable => .clkctl
  | .ctlMode => .clkctl
  | .ctlOff => .clkctl

/-- What selects an operation: the column "selected by" of R50 with the port signals of R51 and R62. -/
inductive Selector where
  /-- Format IN: `push_valid` and `push_data[31:0]`. -/
  | pushPort (valid : Bool) (data : Word)
  /-- Format HALT: the line `halt_req`. -/
  | haltLine (req : Bool)
  /-- The Sequencer's turn at a control point. -/
  | seqAt (cp : ControlPoint)
  /-- The Producer's turn at its control point; `timedOut` as in `Instr.produce`. -/
  | prodAt (pcp : ProducerPoint) (timedOut : Bool)
  /-- A sample given to the Producer by a `sample` line of a stimulus script (R63). -/
  | sample (s : Int)
  /-- The Counter's turn: a microsecond has passed. -/
  | microsecond
deriving DecidableEq, Repr

/-- Whose turn it is where no script says so (R3, R43). The Producer's timeout step (R86) is a choice of its own. -/
inductive Turn where
  | producer
  | producerTimeout
  | sequencer
  | counter
  | haltSource
deriving DecidableEq, Repr, Inhabited

/-- One line of a stimulus script (R63). `offer`, `produce` and `timeout` are the model's own lines: the retry that a `sample` line
leaves behind, the Producer's normal step on its own input stream, and its timeout step (log 5). The lines `cnt` and `fsel`, allowed only
first, are arguments of `State.start`. -/
inductive Stim where
  | push (d : Word)
  | sample (s : Int)
  | offer
  | halt
  | tick (n : Nat)
  | seq
  | seqStar
  | produce
  | timeout
deriving DecidableEq, Repr

end Sys2Proof
end

