-- ==== Sys2Proof/Config.lean ====
section
/-! DEFINITION. The parameters of the block (spec/00_scope.md R6, R7, R8) with the defaults the spec gives, and the free values: what the
spec leaves open and no proof can see. -/

namespace Sys2Proof

/-- IEEE 754 binary64 (R8, R81; D23). -/
def Config.binary64 : FloatFormat := { prec := 53, minExp := -1074, maxExp := 971 }

/-- IEEE 754 binary32, the format R81 compares with. -/
def Config.binary32 : FloatFormat := { prec := 24, minExp := -149, maxExp := 104 }

/-- The parameters of a run, constant from reset on (R25): the table of R6, the configuration of R7, the table of R8. -/
structure Params where
  /-- SAMPLE_RATE, samples and divisor writes a second (R6). -/
  sampleRate : Nat
  /-- SAMPLE_W, the bits of a sample (R6). -/
  sampleW : Nat
  /-- SAMPLE_BYTES, the bytes of a sample in the stream (R6). -/
  sampleBytes : Nat
  /-- DW, the bits of a DivisorValue and of a queue or bus word (R6). -/
  dw : Nat
  /-- DIVW, the bits of the divisor field of CLKDIV (R6). -/
  divw : Nat
  /-- FRAC, the fractional bits of a divisor (R6). -/
  frac : Nat
  /-- TAGW, the bits of the tag at the top of a bus word (R6). -/
  tagw : Nat
  /-- FSELW, the bits of the target pin's function field (R6). -/
  fselw : Nat
  /-- TICK, the microseconds of one count (R6). -/
  tick : Nat
  /-- The float format of the conversion (R8). -/
  fmt : FloatFormat
  /-- FREQ_MHZ (R7). -/
  freqMhz : Flt
  /-- DEV_KHZ (R7). -/
  devKhz : Flt
  /-- CLOCK_SOURCE_MHZ (R6). -/
  clockSourceMhz : Flt
  /-- TIMEOUT_S, absent or whole seconds (R7). -/
  timeoutS : Option Nat
  /-- QMAX (R6). -/
  qmax : Nat
  /-- IDXW (R8). -/
  idxw : Nat
  /-- PERIOD in counter ticks (R6, R41). -/
  period : Nat
  /-- CW, the counter's width (R8). -/
  cw : Nat
  /-- TAG (R8). -/
  tag : Byte
  /-- CTL_SRC_LO and CTL_SRC_W (R8, R52). -/
  ctlSrcLo : Nat
  ctlSrcW : Nat
  /-- CTL_ENAB_BIT (R8, R52). -/
  ctlEnabBit : Nat
  /-- CTL_RESET_BIT (R8, R52). -/
  ctlResetBit : Nat
  /-- CTL_MASH_LO and CTL_MASH_W (R8, R52). -/
  ctlMashLo : Nat
  ctlMashW : Nat
  /-- SRC_SEL (R8). -/
  srcSel : Nat
  /-- MASH_SEL (R8). -/
  mashSel : Nat
  /-- PIN_SHIFT (R8, R54). -/
  pinShift : Nat
  /-- FSEL_CLK (R8, R54). -/
  fselClk : PinFunction
  /-- ADDR_COUNTER, ADDR_CLKCTL, ADDR_CLKDIV and ADDR_PINFSEL: the platform's number where it is told one; none is the spec's default, an
  abstract register id (R8, R32, R38; D15; log 16). -/
  addrCounter : Option Nat
  addrClkctl : Option Nat
  addrClkdiv : Option Nat
  addrPinfsel : Option Nat
  /-- HALT_FIRST (R8; D17). -/
  haltFirst : Bool
deriving DecidableEq, Repr

/-- The values that follow from SAMPLE_RATE (R6): QMAX is one second of samples, and PERIOD the counter ticks of one sample, the integer
quotient toward zero (R41; D9). -/
def Params.atRate (p : Params) (rate : Nat) : Params :=
  { p with sampleRate := rate, qmax := rate, period := 1000000 / rate / p.tick }

/-- The address of a register, if the platform tells one. -/
def Params.addr (p : Params) : Reg → Option Nat
  | .counter => p.addrCounter
  | .clkctl => p.addrClkctl
  | .clkdiv => p.addrClkdiv
  | .pinfsel => p.addrPinfsel

/-- The defaults of R6 and R8. FREQ_MHZ has no default in the spec: 100.5 is the source's example (R80), a DESIGN CHOICE (log 3). The
defaults of R8 marked gk are PRESUMED (log 4). -/
def Params.default : Params where
  sampleRate := 20000
  sampleW := 16
  sampleBytes := 2
  dw := 32
  divw := 24
  frac := 12
  tagw := 8
  fselw := 3
  tick := 1
  fmt := Config.binary64
  freqMhz := .fin false 201 (-1)
  devKhz := .fin false 75 0
  clockSourceMhz := .fin false 500 0
  timeoutS := none
  qmax := 20000
  idxw := 15
  period := 50
  cw := 32
  tag := 0x5A#8
  ctlSrcLo := 0
  ctlSrcW := 4
  ctlEnabBit := 4
  ctlResetBit := 5
  ctlMashLo := 9
  ctlMashW := 2
  srcSel := 6
  mashSel := 1
  pinShift := 12
  fselClk := 0b100#3
  addrCounter := none
  addrClkctl := none
  addrClkdiv := none
  addrPinfsel := none
  haltFirst := true

/-- FREE VALUE: what a queue word that nothing has written reads as (R11, "every word unspecified"; log 1). -/
opaque Config.unwrittenWord : Nat → Word

/-- FREE VALUE: the bytes of an infinite input stream beyond those State lists (R24; log 13). -/
opaque Config.streamByte : Nat → Byte

/-- FREE VALUE: which agent moves at each turn once the script is at its end (R25, R43; log 5). -/
opaque Config.schedule : Nat → Turn

end Sys2Proof
end

