-- ==== Sys2Proof/WellFormed.lean ====
section
/-! DEFINITION. Which terms of the syntax stand for something: the sample range of CONV (spec/42_convert.md R80), the other pins' bits of
a W-FSEL word (spec/30_encoding.md R54), and which parameters are legal (spec/00_scope.md R7, R8, spec/30_encoding.md R52). -/

namespace Sys2Proof

/-- An operation is well-formed when its operand is one the rules give it: a sample is a signed number of SAMPLE_W bits, by default in
-32768..32767 (R80, R6). -/
def Instr.wf (p : Params) : Instr → Bool
  | .push _ => true
  | .pull => true
  | .conv s => decide (-2 ^ (p.sampleW - 1) ≤ s ∧ s < 2 ^ (p.sampleW - 1))
  | .produce _ => true
  | .wait1 => true
  | .rdcnt => true
  | .waitdl => true
  | .setdiv => true
  | .next => true
  | .sethalt => true
  | .enable => true
  | .fselClk => true
  | .ctlReset => true
  | .ctlEnable => true
  | .ctlMode => true
  | .disable => true
  | .ctlOff => true
  | .fselIn => true
  | .haltreq => true
  | .tick => true

/-- The mask of the target pin's field in PINFSEL, FSELW bits from PIN_SHIFT, by default 14:12 (R54). -/
def Params.pinMask (p : Params) : Word := BitVec.ofNat 32 (2 ^ p.fselw - 1) <<< p.pinShift

/-- The place of the tag, by default bit 24: TAGW bits at the top of a bus word (R6, R52, R53). -/
def Params.tagLo (p : Params) : Nat := p.dw - p.tagw

/-- A bus write is well-formed when the other pins' bits leave the target field empty (R54). -/
def BusOp.wf (p : Params) : BusOp → Bool
  | .fselClk others => others &&& p.pinMask == 0#32
  | .fselIn others => others &&& p.pinMask == 0#32
  | .setdiv _ => true
  | .ctlReset => true
  | .ctlEnable => true
  | .ctlMode => true
  | .ctlOff => true

/-- A number > 0, as R7, R154 and R162 ask of FREQ_MHZ and DEV_KHZ. DESIGN CHOICE (log 29), safe: that it is also finite, and a number the
format holds without rounding, is the model's condition; the rules ask > 0 alone, which an infinity meets. -/
def Flt.positive (f : FloatFormat) : Flt → Bool
  | .fin false man exp => decide (0 < man ∧ man < 2 ^ f.prec ∧ f.minExp ≤ exp ∧ exp ≤ f.maxExp)
  | .fin true _ _ => false
  | .inf _ => false
  | .nan => false

/-- The bits of a field `w` wide at `lo`. -/
def fieldMask (lo w : Nat) : Nat := (2 ^ w - 1) <<< lo

/-- R52: the four fields of CLKCTL lie below the tag, in bits 23:0, and do not overlap, and the two field values fit their fields. -/
def Params.ctlFieldsLegal (p : Params) : Bool :=
  decide (p.ctlSrcLo + p.ctlSrcW ≤ p.tagLo ∧ p.ctlMashLo + p.ctlMashW ≤ p.tagLo ∧ p.ctlEnabBit < p.tagLo ∧ p.ctlResetBit < p.tagLo ∧
    p.srcSel < 2 ^ p.ctlSrcW ∧ p.mashSel < 2 ^ p.ctlMashW ∧
    p.ctlEnabBit ≠ p.ctlResetBit ∧
    fieldMask p.ctlSrcLo p.ctlSrcW &&& fieldMask p.ctlMashLo p.ctlMashW = 0 ∧
    fieldMask p.ctlSrcLo p.ctlSrcW &&& fieldMask p.ctlEnabBit 1 = 0 ∧
    fieldMask p.ctlSrcLo p.ctlSrcW &&& fieldMask p.ctlResetBit 1 = 0 ∧
    fieldMask p.ctlMashLo p.ctlMashW &&& fieldMask p.ctlEnabBit 1 = 0 ∧
    fieldMask p.ctlMashLo p.ctlMashW &&& fieldMask p.ctlResetBit 1 = 0)

/-- The widths the source fixes (R6), which are those of the types of Word.lean; a sample fills its bytes (R64) and a count is one
microsecond. -/
def Params.sourceWidths (p : Params) : Bool :=
  decide (p.sampleW = 16 ∧ p.sampleBytes = 2 ∧ p.dw = 32 ∧ p.divw = 24 ∧ p.tagw = 8 ∧ p.fselw = 3 ∧ p.tick = 1)

/-- The addresses the platform tells: word-aligned (R36; D21), and no two registers at one (log 16). -/
def Params.addressesLegal (p : Params) : Bool :=
  let told := [p.addr .counter, p.addr .clkctl, p.addr .clkdiv, p.addr .pinfsel].filterMap id
  decide (told.Nodup ∧ ∀ a ∈ told, a % 4 = 0)

/-- The configuration R7 asks for, the widths of R6, the ranges R8 and the decisions D4, D7, D9 give the open parameters, and the layout
R52 and R54 ask for. A premise of every run (R154, R162); no step tests it. CW is at most 32 because the counter is read as one 32-bit word
(R33, R55). DESIGN CHOICE (log 29): FREQ_MHZ and DEV_KHZ are finite, where R7 asks > 0 alone; CLOCK_SOURCE_MHZ is a positive finite number
and SAMPLE_RATE is not 0, for which the spec states the values 500.0 and 20000 and no condition. -/
def Params.legal (p : Params) : Bool :=
  p.freqMhz.positive p.fmt && p.devKhz.positive p.fmt && p.clockSourceMhz.positive p.fmt && p.sourceWidths &&
    decide (1 ≤ p.sampleRate) && decide (2 ≤ p.cw ∧ p.cw ≤ 32) && decide (1 ≤ p.period) &&
    decide (1 ≤ p.qmax ∧ p.qmax < 2 ^ p.idxw) && p.ctlFieldsLegal && decide (p.pinShift + p.fselw ≤ p.dw) && p.addressesLegal

end Sys2Proof
end

