-- ==== Sys2Proof/Machine/Operands.lean ====
section
/-! DEFINITION. Operand assembly: the words the block writes (spec/30_encoding.md R52 to R54, R56 to R59) and the sample it reads from two
bytes of the stream (R64). -/

namespace Sys2Proof.Machine

/-- The magic tag at its place, bits 31:24 (R56). -/
def tagBits (p : Params) : Word := p.tag.setWidth 32 <<< p.tagLo

/-- The tag field of a word, bits 31:24 (R52, R53). -/
def tagOf (p : Params) (v : Word) : Byte := (v.extractLsb' p.tagLo p.tagw).setWidth 8

/-- `ctl_word(mash, reset, enab, src)` (R52). -/
def ctlWord (p : Params) (mash reset enab src : Nat) : Word :=
  tagBits p ||| (BitVec.ofNat 32 mash <<< p.ctlMashLo) ||| (BitVec.ofNat 32 reset <<< p.ctlResetBit) |||
    (BitVec.ofNat 32 enab <<< p.ctlEnabBit) ||| (BitVec.ofNat 32 src <<< p.ctlSrcLo)

/-- W_RESET (R59). -/
def wReset (p : Params) : Word := ctlWord p 0 1 0 0

/-- W_ENABLE (R59). -/
def wEnable (p : Params) : Word := ctlWord p 0 0 1 0

/-- W_MODE (R59). -/
def wMode (p : Params) : Word := ctlWord p p.mashSel 0 1 p.srcSel

/-- W_OFF (R59). -/
def wOff (p : Params) : Word := ctlWord p 0 0 0 0

/-- The divisor field of a divisor value, `d[23:0]` (R53). -/
def divField (d : Word) : Word24 := d.setWidth 24

/-- `div_word(d)`, the tag over `d[23:0]` (R53); SETDIV uses it for d < 2^24 only (R60). -/
def divWord (p : Params) (d : Word) : Word := tagBits p ||| (divField d).setWidth 32

/-- A divisor value that has a bus word: d < 2^24 (R60). -/
def divInRange (p : Params) (d : Word) : Bool := decide (d.toNat < 2 ^ p.divw)

/-- `fsel_word(old, f)`: the target field replaced, the other 29 bits as read (R54). -/
def fselWord (p : Params) (old : Word) (f : PinFunction) : Word :=
  (old &&& ~~~p.pinMask) ||| (f.setWidth 32 <<< p.pinShift)

/-- The target pin's function field of a PINFSEL word (R54). -/
def pinField (p : Params) (v : Word) : PinFunction := (v.extractLsb' p.pinShift p.fselw).setWidth 3

/-- `sint_N(v)` for a word of `n` bits (spec/00_scope.md section 5). -/
def sint (n v : Nat) : Int := if v < 2 ^ (n - 1) then (v : Int) else (v : Int) - 2 ^ n

/-- The number that bytes stand for, the byte at the lower stream position being the low one (R35). -/
def littleEndian : List Byte → Nat
  | [] => 0
  | b :: bs => b.toNat + 256 * littleEndian bs

/-- The sample of SAMPLE_BYTES bytes, by default `sint_16({b1, b0})` (R64). -/
def sampleOf (p : Params) (bytes : List Byte) : Int := sint p.sampleW (littleEndian bytes)

end Sys2Proof.Machine
end

