-- ==== Sys2Proof/Decode.lean ====
section
/-! DEFINITION. Which operation a selector selects (spec/30_encoding.md R50, R51, R62; spec/10_state.md R14) and which operation a word
written to a register belongs to (spec/30_encoding.md head: `(w & mask) = match` on that register; R52 to R54, R59), both total, rejecting
by name; then the encoders, from the same tables. The block has no instruction memory and so no instruction bytes (R47): an encoding is
the word on the bus, the signals of a port, or the control point. -/

namespace Sys2Proof

/-- Why a selector or a word stands for no operation. -/
inductive DecodeReject where
  /-- `push_valid` = 0: no push is asked for (R51). -/
  | noPush
  /-- `halt_req` = 0: no halt is asked for (R51). -/
  | noRequest
  /-- The Sequencer has no step at `DONE` (R98). -/
  | sequencerDone
  /-- The Producer has no step at `PDONE` (R84). -/
  | producerDone
  /-- A sample outside SAMPLE_W bits, -32768..32767 (R80). -/
  | sampleRange
  /-- COUNTER is read-only: a write to it does not exist (R34). -/
  | readOnlyRegister
  /-- A word to CLKCTL or CLKDIV without TAG in its top byte (R56, R61). -/
  | untagged
  /-- A tagged CLKCTL word that is none of the four (R61). -/
  | unknownControlWord
  /-- A PINFSEL field value that is neither FSEL_CLK nor FSEL_IN (R61). -/
  | otherPinFunction
deriving DecidableEq, Repr

/-- The operation the Sequencer takes at a control point (R14, R50). -/
def decodePoint : ControlPoint → Except DecodeReject Instr
  | .w0 => .ok .wait1
  | .e1 => .ok .fselClk
  | .e2 => .ok .ctlReset
  | .e3 => .ok .ctlEnable
  | .e4 => .ok .ctlMode
  | .e5 => .ok .rdcnt
  | .s0 => .ok .waitdl
  | .s1 => .ok .setdiv
  | .s2 => .ok .next
  | .x1 => .ok .ctlOff
  | .x2 => .ok .fselIn
  | .x3 => .ok .sethalt
  | .done => .error .sequencerDone

/-- The operation a selector selects (R50). -/
def decodeSelector (p : Params) : Selector → Except DecodeReject Instr
  | .pushPort true d => .ok (.push d)
  | .pushPort false _ => .error .noPush
  | .haltLine true => .ok .haltreq
  | .haltLine false => .error .noRequest
  | .seqAt cp => decodePoint cp
  | .prodAt .p0 late => .ok (.produce late)
  | .prodAt .p1 late => .ok (.produce late)
  | .prodAt .pdone _ => .error .producerDone
  | .sample s => if (Instr.conv s).wf p then .ok (.conv s) else .error .sampleRange
  | .microsecond => .ok .tick

/-- The bus write a word on a register belongs to, with the word's own fields (R52 to R54, R59, R61). -/
def decodeWrite (p : Params) : Reg → Word → Except DecodeReject BusOp
  | .counter, _ => .error .readOnlyRegister
  | .clkctl, w =>
    if Machine.tagOf p w ≠ p.tag then .error .untagged
    else if w = Machine.wReset p then .ok .ctlReset
    else if w = Machine.wEnable p then .ok .ctlEnable
    else if w = Machine.wMode p then .ok .ctlMode
    else if w = Machine.wOff p then .ok .ctlOff
    else .error .unknownControlWord
  | .clkdiv, w =>
    if Machine.tagOf p w ≠ p.tag then .error .untagged else .ok (.setdiv (Machine.divField w))
  | .pinfsel, w =>
    if Machine.pinField p w = p.fselClk then .ok (.fselClk (w &&& ~~~p.pinMask))
    else if Machine.pinField p w = Sys2Proof.fselIn then .ok (.fselIn (w &&& ~~~p.pinMask))
    else .error .otherPinFunction

/-- The bus write of a word whose register is not told: the rows of one exact word first, then W-DIV by its tag, then W-FSEL by its field
(log 19). -/
def decodeAnyWrite (p : Params) (w : Word) : Option BusOp :=
  match decodeWrite p .clkctl w with
  | .ok op => some op
  | .error _ =>
    match decodeWrite p .clkdiv w with
    | .ok op => some op
    | .error _ =>
      match decodeWrite p .pinfsel w with
      | .ok op => some op
      | .error _ => none

/-- A row of the table that has bits is one 32-bit bus word; a row without bits has no word. -/
def decodeTableWrite (p : Params) (nbits w : Nat) : Option BusOp :=
  if nbits = 0 ∨ 32 < nbits ∨ 2 ^ 32 ≤ w then none else decodeAnyWrite p (BitVec.ofNat 32 w)

/-- The instruction the decoder reads from the bits the table gives a row, with the default parameters the table uses. -/
def decodeTableWord (nbits w : Nat) : Option Instr :=
  (decodeTableWrite Params.default nbits w).map BusOp.instr

/-- The word of a bus write (R59). -/
def encodeWord (p : Params) : BusOp → Word
  | .setdiv d => Machine.divWord p (d.setWidth 32)
  | .fselClk others => Machine.fselWord p others p.fselClk
  | .fselIn others => Machine.fselWord p others Sys2Proof.fselIn
  | .ctlReset => Machine.wReset p
  | .ctlEnable => Machine.wEnable p
  | .ctlMode => Machine.wMode p
  | .ctlOff => Machine.wOff p

/-- What selects an operation (R50). PULL, ENABLE and DISABLE have no selector of their own: PULL is made inside WAIT1 and NEXT, the two
composites are made of operations that have one each. -/
def encodeSelector : Instr → Option Selector
  | .push d => some (.pushPort true d)
  | .pull => none
  | .conv s => some (.sample s)
  | .produce late => some (.prodAt .p0 late)
  | .wait1 => some (.seqAt .w0)
  | .rdcnt => some (.seqAt .e5)
  | .waitdl => some (.seqAt .s0)
  | .setdiv => some (.seqAt .s1)
  | .next => some (.seqAt .s2)
  | .sethalt => some (.seqAt .x3)
  | .enable => none
  | .fselClk => some (.seqAt .e1)
  | .ctlReset => some (.seqAt .e2)
  | .ctlEnable => some (.seqAt .e3)
  | .ctlMode => some (.seqAt .e4)
  | .disable => none
  | .ctlOff => some (.seqAt .x1)
  | .fselIn => some (.seqAt .x2)
  | .haltreq => some (.haltLine true)
  | .tick => some .microsecond

end Sys2Proof
end

