-- ==== Sys2Proof/Machine/State.lean ====
section
/-! DEFINITION. The state of the block (spec/10_state.md R10 to R25), what it is at reset (R26, spec/70_reset_and_hazards.md R160), and the
reasons the model itself can stop. -/

namespace Sys2Proof.Machine

/-- The queue RAM (R30, R31): words by index, indices rising, each index at most once, nothing listed that nothing has written (log 1). -/
abbrev Memory := List (Nat × Word)

/-- An event on the register bus (R22). -/
inductive BusEvent where
  | rd (r : Reg) (v : Word)
  | wr (r : Reg) (v : Word)
deriving DecidableEq, Repr

/-- An event of the trace with the counter's value at the step that made it, the annotation R22 allows; no rule reads it (log 17). -/
structure TraceEntry where
  event : BusEvent
  stamp : Nat
deriving DecidableEq, Repr

/-- The faults of R141. Raising one records it in FAULTS; the machine goes on as the raising rule says. -/
inductive FaultRecord where
  /-- SETDIV with HELD of 2^24 or more (R143). -/
  | divisorRange (d : Word)
  /-- CONV with no result (R82). -/
  | convRange (s : Int)
  /-- One byte left in the input stream (R85). -/
  | shortRead
deriving DecidableEq, Repr

/-- The state. `script` and `turn` are the model's own: the moves still to come (R63, R25; log 5). `par` holds the run's parameters, which
no step changes (R25). -/
structure State where
  /-- The parameters of the run (R6, R7, R8, R25). -/
  par : Params
  /-- `Q` (R11). -/
  q : Memory
  /-- `HEAD` (R12). -/
  head : Nat
  /-- `COUNT` (R13). -/
  count : Nat
  /-- `cp` (R14). -/
  cp : ControlPoint
  /-- `HELD` (R15). -/
  held : Word
  /-- `ND` (R16), a word of CW bits. -/
  nd : Nat
  /-- `HALT` (R17). -/
  halt : Bool
  /-- `CNT` (R19), a word of CW bits. -/
  cnt : Nat
  /-- `T_PINFSEL` (R20). -/
  tPinfsel : Word
  /-- `T_CLKCTL` (R20). -/
  tClkctl : Word24
  /-- `T_CLKDIV` (R20). -/
  tClkdiv : Word24
  /-- `IN` (R24): the bytes still to be read. -/
  inp : List Byte
  /-- Whether `IN` goes on without end after the bytes of `inp` (R24). -/
  inEndless : Bool
  /-- How many bytes of the endless part have been read (log 13). -/
  inPos : Nat
  /-- `PEND` (R24): the divisor the Producer is trying to push, or none. -/
  pend : Option Word
  /-- `pcp` (R24). -/
  pcp : ProducerPoint
  /-- `TR` (R22), oldest event first. -/
  tr : List TraceEntry
  /-- `FAULTS` (R23), no fault twice. -/
  faults : List FaultRecord
  /-- The stimulus still to come (R63). -/
  script : List Stim
  /-- How many turns of the free schedule have been drawn. -/
  turn : Nat
deriving DecidableEq, Repr

/-- Why the model itself stops. The faults of the spec (R141) are no stops: see `FaultRecord`. -/
inductive Fault where
  /-- Raised by PRODUCE at P1 with PEND none, for which the spec has no step. Safe: no run reaches it, since P1 is entered only with a
  divisor in PEND (R83; log 15). -/
  | pendMissing
deriving DecidableEq, Repr

/-- Why the model gives no meaning. -/
inductive Refusal where
  /-- Raised by `exec` for an operation without a meaning yet. Safe. -/
  | notModelled (mnemonic : String)
  /-- Raised by `memRead` for a register R33 gives no read of (CLKCTL, CLKDIV). Safe: no operation makes the access. -/
  | notReadable (r : Reg)
  /-- Raised by `memWrite` for COUNTER, a write to which does not exist (R34). Safe: no operation makes the access. -/
  | notWritable (r : Reg)
deriving DecidableEq, Repr

/-- A reset state for given parameters, input stream, stimulus, and the values reset does not reach: the counter and the Target's registers
(R160, R161). HELD and ND are 0 for want of a value (D31; log 2). -/
def State.start (par : Params) (inp : List Byte) (inEndless : Bool) (cnt : Nat) (pinfsel : Word) (clkctl clkdiv : Word24)
    (script : List Stim) : State where
  par := par
  q := []
  head := 0
  count := 0
  cp := .w0
  held := 0#32
  nd := 0
  halt := false
  cnt := cnt
  tPinfsel := pinfsel
  tClkctl := clkctl
  tClkdiv := clkdiv
  inp := inp
  inEndless := inEndless
  inPos := 0
  pend := none
  pcp := .p0
  tr := []
  faults := []
  script := script
  turn := 0

/-- The machine right after reset (R26). CNT and the Target shadow, which reset leaves unspecified, are 0 (log 2); the stream is empty and
the parameters are the defaults (log 3); no stimulus is placed (log 5). -/
def State.reset : State := State.start Params.default [] false 0 0#32 0#24 0#24 []

end Sys2Proof.Machine
end

