-- ==== Sys2Proof/Machine/Flags.lean ====
section
/-! DEFINITION. The conditions a step tests. The block has no condition codes (spec/10_state.md R27): what stands here is the deadline
comparison and the counter's arithmetic (spec/20_memory.md R39 to R41), the predicates on HALT, DONE and the shadow (R17, R18,
spec/44_regwriter.md R119), and the label of a stop (spec/60_exceptions.md R140). -/

namespace Sys2Proof.Machine

/-- `(c - nd) mod 2^CW` for words of CW bits (R40). -/
def ticksPast (cw c nd : Nat) : Nat := (((c : Int) - (nd : Int)) % (2 ^ cw : Int)).toNat

/-- `reached(c, nd)`: the signed difference at the counter's width is not negative (R40). -/
def reached (cw c nd : Nat) : Bool := decide (0 ≤ sint cw (ticksPast cw c nd))

/-- The next deadline, `(ND + PERIOD) mod 2^CW` (R41). -/
def advance (p : Params) (nd : Nat) : Nat := (nd + p.period) % 2 ^ p.cw

/-- The counter's successor, `(CNT + 1) mod 2^CW` (R39, R135). -/
def nextCount (p : Params) (c : Nat) : Nat := (c + 1) % 2 ^ p.cw

/-- The count of a value read from COUNTER, its bits CW-1:0 (R55, R93, R94). -/
def countOf (p : Params) (v : Word) : Nat := v.toNat % 2 ^ p.cw

/-- DONE, the predicate `cp = DONE` (R18). -/
def State.isDone (s : State) : Bool := decide (s.cp = .done)

/-- Bit CTL_ENAB_BIT of the shadow of CLKCTL (R119). -/
def State.clockEnabled (s : State) : Bool := s.tClkctl.getLsbD s.par.ctlEnabBit

/-- The logical state *enabled* (R119). -/
def State.outputEnabled (s : State) : Bool := decide (pinField s.par s.tPinfsel = s.par.fselClk) && s.clockEnabled

/-- The logical state *disabled* (R119). -/
def State.outputDisabled (s : State) : Bool := decide (pinField s.par s.tPinfsel = fselIn) && !s.clockEnabled

/-- The four stop causes (R140); no register holds one (D24). -/
inductive StopCause where
  | haltBeforeStart
  | haltWhileStreaming
  | underflow
  | divisorRange
deriving DecidableEq, Repr

/-- The label of a stop cause (R140). -/
def causeLabel : StopCause → Nat
  | .haltBeforeStart => 1
  | .haltWhileStreaming => 2
  | .underflow => 3
  | .divisorRange => 4

/-- The cause for which the Sequencer's next step leaves for X1, if it does (R140). With HALT_FIRST false the flag is seen only where
there is no data or the deadline is not reached (log 9). -/
def stopCause (s : State) : Option StopCause :=
  match s.cp with
  | .w0 => if s.halt && (s.par.haltFirst || decide (s.count = 0)) then some .haltBeforeStart else none
  | .s0 =>
    if s.halt && (s.par.haltFirst || !reached s.par.cw (countOf s.par (BitVec.ofNat 32 s.cnt)) s.nd) then some .haltWhileStreaming
    else none
  | .s1 => if divInRange s.par s.held then none else some .divisorRange
  | .s2 => if s.count = 0 then some .underflow else none
  | .e1 | .e2 | .e3 | .e4 | .e5 | .x1 | .x2 | .x3 | .done => none

/-- The Sequencer's step would leave `cp` where it is: it waits at W0 or spins at S0, or it is DONE (R63 `seq*`). -/
def spinning (s : State) : Bool :=
  match s.cp with
  | .w0 => !s.halt && decide (s.count = 0)
  | .s0 => !s.halt && !reached s.par.cw (countOf s.par (BitVec.ofNat 32 s.cnt)) s.nd
  | .done => true
  | .e1 | .e2 | .e3 | .e4 | .e5 | .s1 | .s2 | .x1 | .x2 | .x3 => false

end Sys2Proof.Machine
end

