-- ==== Sys2Proof/Machine/Ops.lean ====
section
/-! DEFINITION. The named operations the meanings are made of: the queue RAM (spec/20_memory.md R31, R48), the two bus primitives (R33,
R34), the two queue operations (spec/41_fifo.md R70, R71), raising a fault (spec/60_exceptions.md R141), entering the stop sequence, which
is what the block has for taking an exception (R146; there is no return from it, R147), and reading the input stream
(spec/30_encoding.md R64). -/

namespace Sys2Proof.Machine

/-- The word written at an index, if one was. -/
def Memory.read : Memory → Nat → Option Word
  | [], _ => none
  | (j, w) :: rest, i => if i = j then some w else Memory.read rest i

/-- A word written at an index; the listing stays in rising order. -/
def Memory.write : Memory → Nat → Word → Memory
  | [], i, v => [(i, v)]
  | (j, w) :: rest, i, v =>
    if i < j then (i, v) :: (j, w) :: rest
    else if i = j then (i, v) :: rest
    else (j, w) :: Memory.write rest i v

/-- The canonical form: indices strictly rising. Nothing is listed that nothing has written, so equal queues are equal lists. -/
abbrev Memory.wf (m : Memory) : Prop := m.Pairwise fun a b => a.1 < b.1

/-- `Q[i]`, a free value where nothing has been written (R11; log 1). -/
def State.readQ (s : State) (i : Nat) : Word := (Memory.read s.q i).getD (Config.unwrittenWord i)

/-- The index PUSH stores at, `(HEAD + COUNT) mod QMAX` on natural numbers (R48). -/
def State.pushIndex (s : State) : Nat := (s.head + s.count) % s.par.qmax

/-- A control transfer of the sequencer, `cp <- L`. -/
def State.goto (s : State) (c : ControlPoint) : State := { s with cp := c }

/-- An event appended to TR (R22). -/
def State.record (s : State) (e : BusEvent) : State := { s with tr := s.tr ++ [{ event := e, stamp := s.cnt }] }

/-- `raise F(info)`: the fault joins FAULTS, once (R23, R141). -/
def State.raise (s : State) (f : FaultRecord) : State :=
  { s with faults := if f ∈ s.faults then s.faults else s.faults ++ [f] }

/-- Stop entry: nothing is saved, `cp` goes to X1 (R146). -/
def State.enterStop (s : State) : State := s.goto .x1

/-- `MemRead(REG, 4)`: the value and the state with the event appended (R33). -/
def memRead (r : Reg) (s : State) : Except Refusal (Word × State) :=
  match r with
  | .counter => .ok (BitVec.ofNat 32 s.cnt, s.record (.rd .counter (BitVec.ofNat 32 s.cnt)))
  | .pinfsel => .ok (s.tPinfsel, s.record (.rd .pinfsel s.tPinfsel))
  | .clkctl => .error (.notReadable .clkctl)
  | .clkdiv => .error (.notReadable .clkdiv)

/-- What the shadow of a tagged register holds after a write: bits 23:0 when the tag is right, else what it held (R34, D16). -/
def taggedWrite (p : Params) (old : Word24) (v : Word) : Word24 := if tagOf p v = p.tag then v.setWidth 24 else old

/-- `MemWrite(REG, 4, v)`: the event appended and the shadow updated (R34). -/
def memWrite (r : Reg) (v : Word) (s : State) : Except Refusal State :=
  match r with
  | .pinfsel => .ok { s.record (.wr .pinfsel v) with tPinfsel := v }
  | .clkctl => .ok { s.record (.wr .clkctl v) with tClkctl := taggedWrite s.par s.tClkctl v }
  | .clkdiv => .ok { s.record (.wr .clkdiv v) with tClkdiv := taggedWrite s.par s.tClkdiv v }
  | .counter => .error (.notWritable .counter)

/-- The rest of a step after a bus access: what the access refuses, the step refuses. -/
def afterBus {α : Type} (a : Except Refusal α) (k : α → Host.Outcome State Fault Refusal) : Host.Outcome State Fault Refusal :=
  match a with
  | .ok x => k x
  | .error r => .refused r

/-- One step after another, as a composite operation makes them (R110, R116). -/
def andThen (o : Host.Outcome State Fault Refusal) (k : State → Host.Outcome State Fault Refusal) : Host.Outcome State Fault Refusal :=
  match o with
  | .next s => k s
  | .fault f => .fault f
  | .refused r => .refused r

/-- One write to CLKCTL and the control transfer after it (R112 to R114, R117). -/
def controlWrite (w : Word) (c : ControlPoint) (s : State) : Host.Outcome State Fault Refusal :=
  afterBus (memWrite .clkctl w s) fun t => .next (t.goto c)

/-- The read-modify-write of PINFSEL in one step and the control transfer after it (R111, R118). -/
def pinWrite (f : PinFunction) (c : ControlPoint) (s : State) : Host.Outcome State Fault Refusal :=
  afterBus (memRead .pinfsel s) fun (old, t) =>
    afterBus (memWrite .pinfsel (fselWord s.par old f) t) fun u => .next (u.goto c)

/-- PUSH (R70): the result `ok` or `fail` and the state after it. -/
def push (d : Word) (s : State) : Bool × State :=
  if s.count < s.par.qmax then
    (true, { s with q := Memory.write s.q s.pushIndex d, count := s.count + 1 })
  else (false, s)

/-- PULL (R71): the value pulled, none for `fail`, and the state after it. -/
def pull (s : State) : Option Word × State :=
  if 0 < s.count then
    (some (s.readQ s.head), { s with head := (s.head + 1) % s.par.qmax, count := s.count - 1 })
  else (none, s)

/-- What reading the next sample from IN finds (R64, R83). -/
inductive StreamRead where
  /-- IN is empty. -/
  | endOfStream
  /-- IN holds fewer bytes than one sample, by default exactly one. -/
  | partOfSample
  /-- A sample, and the state with its bytes taken off IN. -/
  | sample (v : Int) (rest : State)

/-- `n` bytes of an endless stream beyond those listed, from position `k` on: free values (R24; log 13). -/
def freeBytes (k : Nat) : Nat → List Byte
  | 0 => []
  | n + 1 => Config.streamByte k :: freeBytes (k + 1) n

/-- The next sample of IN, SAMPLE_BYTES bytes; an endless stream goes on with free bytes (R24, R64; log 13). -/
def readSample (s : State) : StreamRead :=
  if s.par.sampleBytes ≤ s.inp.length then
    .sample (sampleOf s.par (s.inp.take s.par.sampleBytes)) { s with inp := s.inp.drop s.par.sampleBytes }
  else if s.inEndless then
    .sample (sampleOf s.par (s.inp ++ freeBytes s.inPos (s.par.sampleBytes - s.inp.length)))
      { s with inp := [], inPos := s.inPos + (s.par.sampleBytes - s.inp.length) }
  else if s.inp = [] then .endOfStream
  else .partOfSample

end Sys2Proof.Machine
end

