-- ==== Sys2Proof/Machine/Environment.lean ====
section
/-! DEFINITION. The meanings of the environment's operations (spec/45_halt_and_environment.md R130, R135). -/

namespace Sys2Proof.Machine

/-- HALTREQ (R130): the flag and nothing else. -/
def execHaltreq (s : State) : Host.Outcome State Fault Refusal := .next { s with halt := true }

/-- TICK (R135). -/
def execTick (s : State) : Host.Outcome State Fault Refusal := .next { s with cnt := nextCount s.par s.cnt }

end Sys2Proof.Machine
end

