-- ==== Sys2Proof/Machine/Fifo.lean ====
section
/-! DEFINITION. The meanings of the FIFO family (spec/41_fifo.md R70, R71). -/

namespace Sys2Proof.Machine

/-- PUSH d (R70). The result `push_ok` is returned in the step and stored nowhere (R27): `(push d s).1`. -/
def execPush (d : Word) (s : State) : Host.Outcome State Fault Refusal := .next (push d s).2

/-- PULL (R71) by itself: the value goes to the caller, WAIT1 or NEXT, and is stored nowhere (R27): `(pull s).1` (log 7). -/
def execPull (s : State) : Host.Outcome State Fault Refusal := .next (pull s).2

end Sys2Proof.Machine
end

