-- ==== Sys2Proof/Machine/Float.lean ====
section
/-! DEFINITION. The floating-point arithmetic of the conversion (spec/42_convert.md R80, R81): each operation computed exactly on a
fraction and rounded once to the format, to nearest and ties to even, with gradual underflow and overflow to infinity as IEEE 754 has
them (log 26). -/

namespace Sys2Proof

/-- The exponent of the last place to which a fraction `num / den` is rounded, before the format's least exponent is applied: the one that
leaves `prec` bits in front of the point. -/
def floatExp (f : FloatFormat) (num den : Nat) : Int :=
  let e := (Nat.log2 num : Int) - (Nat.log2 den : Int) - (f.prec - 1)
  if num * 2 ^ (-e).toNat < den * 2 ^ e.toNat * 2 ^ (f.prec - 1) then e - 1 else e

/-- The integer nearest to `n / d`, ties to the even one. -/
def nearestEven (n d : Nat) : Nat :=
  let m := n / d
  let r := n % d
  if 2 * r < d then m
  else if d < 2 * r then m + 1
  else if m % 2 = 0 then m else m + 1

/-- The value of the format nearest to `num / den` (with `den` not 0) and of the given sign. -/
def Flt.round (f : FloatFormat) (neg : Bool) (num den : Nat) : Flt :=
  if num = 0 then .fin neg 0 0
  else
    let e := max (floatExp f num den) f.minExp
    let m := nearestEven (num * 2 ^ (-e).toNat) (den * 2 ^ e.toNat)
    let (m', e') := if m = 2 ^ f.prec then (2 ^ (f.prec - 1), e + 1) else (m, e)
    if f.maxExp < e' then .inf neg else .fin neg m' e'

/-- An integer as a floating-point value, exact. -/
def Flt.ofInt (i : Int) : Flt := .fin (decide (i < 0)) i.natAbs 0

/-- Product, rounded once. -/
def Flt.mul (f : FloatFormat) : Flt → Flt → Flt
  | .nan, _ => .nan
  | _, .nan => .nan
  | .inf a, .inf b => .inf (a != b)
  | .inf a, .fin b m _ => if m = 0 then .nan else .inf (a != b)
  | .fin a m _, .inf b => if m = 0 then .nan else .inf (a != b)
  | .fin a m e, .fin b n g => .round f (a != b) (m * n * 2 ^ (e + g).toNat) (2 ^ (-(e + g)).toNat)

/-- Quotient, rounded once; a number other than 0 over 0 is an infinity. -/
def Flt.div (f : FloatFormat) : Flt → Flt → Flt
  | .nan, _ => .nan
  | _, .nan => .nan
  | .inf _, .inf _ => .nan
  | .inf a, .fin b _ _ => .inf (a != b)
  | .fin a _ _, .inf b => .fin (a != b) 0 0
  | .fin a m e, .fin b n g =>
    if n = 0 then (if m = 0 then .nan else .inf (a != b))
    else .round f (a != b) (m * 2 ^ (e - g).toNat) (n * 2 ^ (-(e - g)).toNat)

/-- A signed significand. -/
def signedMan (neg : Bool) (m : Nat) : Int := if neg then -(m : Int) else m

/-- Sum, rounded once; an exact sum of 0 is +0 unless both terms are negative. -/
def Flt.add (f : FloatFormat) : Flt → Flt → Flt
  | .nan, _ => .nan
  | _, .nan => .nan
  | .inf a, .inf b => if a = b then .inf a else .nan
  | .inf a, .fin _ _ _ => .inf a
  | .fin _ _ _, .inf b => .inf b
  | .fin a m e, .fin b n g =>
    let lo := min e g
    let sum := signedMan a m * 2 ^ (e - lo).toNat + signedMan b n * 2 ^ (g - lo).toNat
    let neg := if sum = 0 then a && b else decide (sum < 0)
    .round f neg (sum.natAbs * 2 ^ lo.toNat) (2 ^ (-lo).toNat)

/-- `trunc`: the integer part, toward zero; none where the value is no finite number. -/
def Flt.trunc : Flt → Option Int
  | .nan => none
  | .inf _ => none
  | .fin neg m e => some (signedMan neg (m * 2 ^ e.toNat / 2 ^ (-e).toNat))

end Sys2Proof

namespace Sys2Proof.Machine

/-- DEV_MHZ = DEV_KHZ / 1000 (R7; C2), rounded once (log 11). -/
def devMhz (p : Params) : Flt := .div p.fmt p.devKhz (.ofInt 1000)

/-- The instantaneous target frequency `f` of a sample in MHz, the first three lines of R80;
full scale is SAMPLE_W bits, 32768. -/
def targetFreq (p : Params) (s : Int) : Flt :=
  let x := Flt.div p.fmt (.ofInt s) (.ofInt (2 ^ (p.sampleW - 1)))
  let y := Flt.mul p.fmt x (devMhz p)
  Flt.add p.fmt p.freqMhz y

/-- The scaled quotient `r` of a sample, before truncation: the scale is FRAC bits, 4096 (R80, R6). -/
def scaledDivisor (p : Params) (s : Int) : Flt :=
  Flt.mul p.fmt (Flt.div p.fmt p.clockSourceMhz (targetFreq p s)) (.ofInt (2 ^ p.frac))

/-- CONV as a pure function (R80); none where it raises ConvRange (R82). -/
def convert (p : Params) (s : Int) : Option Word :=
  match (scaledDivisor p s).trunc with
  | none => none
  | some t => if 0 ≤ t ∧ t < 2 ^ p.dw then some (BitVec.ofInt 32 t) else none

end Sys2Proof.Machine
end

