-- ==== Sys2Proof/Machine/Producer.lean ====
section
/-! DEFINITION. The meanings of the producer family (spec/42_convert.md R80 to R86). -/

namespace Sys2Proof.Machine

/-- A converted sample: `PEND <- CONV s ; pcp <- P1`, or ConvRange, nothing to push, and the Producer stops (R82, R83). -/
def takeSample (v : Int) (s : State) : State :=
  match convert s.par v with
  | some d => { s with pend := some d, pcp := .p1 }
  | none => { s.raise (.convRange v) with pcp := .pdone }

/-- CONV s (R80). Its result goes where R83 puts it (log 10). -/
def execConv (v : Int) (s : State) : Host.Outcome State Fault Refusal := .next (takeSample v s)

/-- The Producer's step at P0 (R83 to R85): halt, then end of stream, then a short read, then a sample (R145). -/
def produceRead (s : State) : State :=
  if s.halt then { s with pcp := .pdone }
  else match readSample s with
    | .endOfStream => { s with pcp := .pdone }
    | .partOfSample => { s.raise .shortRead with halt := true, pcp := .pdone }
    | .sample v rest => takeSample v rest

/-- The Producer's step at P1 (R83): push first, halt only after a failed push (R145). -/
def produceOffer (s : State) : Host.Outcome State Fault Refusal :=
  match s.pend with
  | none => .fault .pendMissing
  | some d =>
    match push d s with
    | (true, t) => .next { t with pend := none, pcp := .p0 }
    | (false, t) => .next (if t.halt then { t with pend := none, pcp := .pdone } else { t with pcp := .p1 })

/-- The Producer's timeout step (R86). -/
def produceTimeout (s : State) : State := { s with halt := true, pend := none, pcp := .pdone }

/-- PRODUCE (R83): the timeout step where one is configured and taken, else the step its control point selects; at PDONE no step is left to
take and nothing changes (R84; log 27). -/
def execProduce (timedOut : Bool) (s : State) : Host.Outcome State Fault Refusal :=
  match s.pcp with
  | .pdone => .next s
  | .p0 => if timedOut && s.par.timeoutS.isSome then .next (produceTimeout s) else .next (produceRead s)
  | .p1 => if timedOut && s.par.timeoutS.isSome then .next (produceTimeout s) else produceOffer s

end Sys2Proof.Machine
end

