-- ==== Sys2Proof/Machine/RegWriter.lean ====
section
/-! DEFINITION. The meanings of the register writer's family (spec/44_regwriter.md R110 to R118); SETDIV stands with the sequencer. -/

namespace Sys2Proof.Machine

/-- FSEL_CLK (R111). -/
def execFselClk (s : State) : Host.Outcome State Fault Refusal := pinWrite s.par.fselClk .e2 s

/-- CTL_RESET (R112). -/
def execCtlReset (s : State) : Host.Outcome State Fault Refusal := controlWrite (wReset s.par) .e3 s

/-- CTL_ENABLE (R113). -/
def execCtlEnable (s : State) : Host.Outcome State Fault Refusal := controlWrite (wEnable s.par) .e4 s

/-- CTL_MODE (R114). -/
def execCtlMode (s : State) : Host.Outcome State Fault Refusal := controlWrite (wMode s.par) .e5 s

/-- ENABLE (R110): the four writes in their order, with nothing between them; in a run they are four steps (log 7). -/
def execEnable (s : State) : Host.Outcome State Fault Refusal :=
  andThen (pinWrite s.par.fselClk .e2 s) fun a =>
    andThen (controlWrite (wReset s.par) .e3 a) fun b =>
      andThen (controlWrite (wEnable s.par) .e4 b) fun c => controlWrite (wMode s.par) .e5 c

/-- CTL_OFF (R117). -/
def execCtlOff (s : State) : Host.Outcome State Fault Refusal := controlWrite (wOff s.par) .x2 s

/-- FSEL_IN (R118). -/
def execFselIn (s : State) : Host.Outcome State Fault Refusal := pinWrite fselIn .x3 s

/-- DISABLE (R116): the two writes in their order, with nothing between them; in a run they are two steps (log 7). -/
def execDisable (s : State) : Host.Outcome State Fault Refusal :=
  andThen (controlWrite (wOff s.par) .x2 s) fun a => pinWrite fselIn .x3 a

end Sys2Proof.Machine
end

