-- ==== Sys2Proof/Machine/Sequencer.lean ====
section
/-! DEFINITION. The meanings of the sequencer family (spec/43_sequencer.md R91 to R97). Each is the whole step of its control point; which
one is taken is decided by `cp` (Decode.lean), not tested again here (log 6). -/

namespace Sys2Proof.Machine

/-- WAIT1 (R91): halt before data where HALT_FIRST holds (R145). -/
def execWait1 (s : State) : Host.Outcome State Fault Refusal :=
  if s.par.haltFirst && s.halt then .next s.enterStop
  else match pull s with
    | (some v, t) => .next ({ t with held := v }.goto .e1)
    | (none, t) => .next (if t.halt then t.enterStop else t.goto .w0)

/-- RDCNT (R93). -/
def execRdcnt (s : State) : Host.Outcome State Fault Refusal :=
  afterBus (memRead .counter s) fun (v, t) => .next ({ t with nd := countOf s.par v }.goto .s0)

/-- WAITDL (R94): halt before the deadline, and before the read, where HALT_FIRST holds (R145). -/
def execWaitdl (s : State) : Host.Outcome State Fault Refusal :=
  if s.par.haltFirst && s.halt then .next s.enterStop
  else afterBus (memRead .counter s) fun (v, t) =>
    if reached s.par.cw (countOf s.par v) s.nd then .next (t.goto .s1)
    else .next (if t.halt then t.enterStop else t.goto .s0)

/-- SETDIV (R95, R115): the write, or the fault DivisorRange, no write, and the stop sequence (R60, R143). -/
def execSetdiv (s : State) : Host.Outcome State Fault Refusal :=
  if divInRange s.par s.held then
    afterBus (memWrite .clkdiv (divWord s.par s.held) s) fun t => .next (t.goto .s2)
  else .next (s.raise (.divisorRange s.held)).enterStop

/-- NEXT (R96): the next divisor and deadline, or the underflow. -/
def execNext (s : State) : Host.Outcome State Fault Refusal :=
  match pull s with
  | (some v, t) => .next ({ t with held := v, nd := advance s.par s.nd }.goto .s0)
  | (none, t) => .next t.enterStop

/-- SETHALT (R97). -/
def execSethalt (s : State) : Host.Outcome State Fault Refusal := .next ({ s with halt := true }.goto .done)

end Sys2Proof.Machine
end

