-- ==== Sys2Proof/Machine/Dispatch.lean ====
section
/-! DEFINITION. One arm per operation of spec/opcode_table.json (spec/30_encoding.md R50). -/

namespace Sys2Proof.Machine

def exec (i : Instr) (s : State) : Host.Outcome State Fault Refusal :=
  match i with
  | .push d => Sys2Proof.Machine.execPush d s
  | .pull => Sys2Proof.Machine.execPull s
  | .conv v => Sys2Proof.Machine.execConv v s
  | .produce timedOut => Sys2Proof.Machine.execProduce timedOut s
  | .wait1 => Sys2Proof.Machine.execWait1 s
  | .rdcnt => Sys2Proof.Machine.execRdcnt s
  | .waitdl => Sys2Proof.Machine.execWaitdl s
  | .setdiv => Sys2Proof.Machine.execSetdiv s
  | .next => Sys2Proof.Machine.execNext s
  | .sethalt => Sys2Proof.Machine.execSethalt s
  | .enable => Sys2Proof.Machine.execEnable s
  | .fselClk => Sys2Proof.Machine.execFselClk s
  | .ctlReset => Sys2Proof.Machine.execCtlReset s
  | .ctlEnable => Sys2Proof.Machine.execCtlEnable s
  | .ctlMode => Sys2Proof.Machine.execCtlMode s
  | .disable => Sys2Proof.Machine.execDisable s
  | .ctlOff => Sys2Proof.Machine.execCtlOff s
  | .fselIn => Sys2Proof.Machine.execFselIn s
  | .haltreq => Sys2Proof.Machine.execHaltreq s
  | .tick => Sys2Proof.Machine.execTick s

end Sys2Proof.Machine
end

