-- ==== Sys2Proof/Machine/Stimulus.lean ====
section
/-! DEFINITION. Which agent moves next and what its move selects: the stimulus script of spec/30_encoding.md R63, and after its end the
free schedule (spec/20_memory.md R43, spec/10_state.md R25). The block fetches no instructions (spec/20_memory.md R47): what a step
fetches is the selector of the agent whose turn it is. -/

namespace Sys2Proof.Machine

/-- What an agent's turn selects (R50). -/
def turnSelector (s : State) : Turn → Selector
  | .producer => .prodAt s.pcp false
  | .producerTimeout => .prodAt s.pcp true
  | .sequencer => .seqAt s.cp
  | .counter => .microsecond
  | .haltSource => .haltLine true

/-- A line of the script (R63): what it selects now, and the lines that stand in its place. A line that is over selects nothing and goes
(log 21). DESIGN CHOICE (log 30): a `sample` line is the Producer's sample given by the script itself, so it takes no bytes off IN, and at P0
it runs CONV whatever HALT is, as R63 expands it; the tests of R83 at P0 are those of PRODUCE. -/
def lineSelector (s : State) : Stim → Option Selector × List Stim
  | .push d => (some (.pushPort true d), [])
  | .sample v =>
    match s.pcp with
    | .p0 => (some (.sample v), [.offer])
    | .p1 => (some (.prodAt .p1 false), [.sample v])
    | .pdone => (none, [])
  | .offer => if s.pcp = .p1 then (some (.prodAt .p1 false), [.offer]) else (none, [])
  | .halt => (some (.haltLine true), [])
  | .tick 0 => (none, [])
  | .tick (n + 1) => (some .microsecond, [.tick n])
  | .seq => (some (.seqAt s.cp), [])
  | .seqStar => if spinning s then (none, []) else (some (.seqAt s.cp), [.seqStar])
  | .produce => (some (.prodAt s.pcp false), [])
  | .timeout => (some (.prodAt s.pcp true), [])

/-- What the next step selects, and the state in which it is performed: the script's first line, or, with no script left, the free
schedule's next turn (log 5). -/
def fetch (s : State) : Option Selector × State :=
  match s.script with
  | [] => (some (turnSelector s (Config.schedule s.turn)), { s with turn := s.turn + 1 })
  | line :: rest => ((lineSelector s line).1, { s with script := (lineSelector s line).2 ++ rest })

/-- The selected operation performed. Where an agent has no step (R84, R98), or a script line is over, nothing else changes (log 8). -/
def perform (sel : Option Selector) (s : State) : Host.Outcome State Fault Refusal :=
  match sel with
  | none => .next s
  | some sel =>
    match decodeSelector s.par sel with
    | .error _ => .next s
    | .ok i => exec i s

/-- One step under a schedule given from outside: the agent named takes its turn (R43). -/
def takeTurn (w : Turn) (s : State) : Host.Outcome State Fault Refusal := perform (some (turnSelector s w)) s

/-- `n` steps under a schedule, its turns drawn from `k` on. -/
def runUnder (schedule : Nat → Turn) : Nat → Nat → State → Host.Outcome State Fault Refusal
  | _, 0, s => .next s
  | k, n + 1, s => andThen (takeTurn (schedule k) s) (runUnder schedule (k + 1) n)

/-- A bus write put where the Sequencer's next step makes it: the control point that selects it, its word's fields where the operation
reads them, and the Sequencer's turn (log 20). -/
def placeWrite (op : BusOp) (w : Word) (s : State) : State :=
  let t := { s with script := .seq :: s.script }
  match op with
  | .setdiv d => { t with held := d.setWidth 32, cp := .s1 }
  | .fselClk _ => { t with tPinfsel := w, cp := .e1 }
  | .fselIn _ => { t with tPinfsel := w, cp := .x2 }
  | .ctlReset => { t with cp := .e2 }
  | .ctlEnable => { t with cp := .e3 }
  | .ctlMode => { t with cp := .e4 }
  | .ctlOff => { t with cp := .x1 }

/-- The instruction whose bits are `w` placed so that the next step runs it; bits that stand for no operation place nothing. -/
def placeTableWord (s : State) (nbits w : Nat) : State :=
  match decodeTableWrite s.par nbits w with
  | none => s
  | some op => placeWrite op (BitVec.ofNat 32 w) s

end Sys2Proof.Machine
end

