-- ==== Sys2Proof/Machine/Step.lean ====
section
/-! DEFINITION. One step of the block: one atomic transition of one agent (spec/00_scope.md section 5, spec/20_memory.md R43). -/

namespace Sys2Proof.Machine

/-- The step. -/
def step (s : State) : Host.Outcome State Fault Refusal := perform (fetch s).1 (fetch s).2

/-- The state in which the next step runs the instruction whose bits are `w` (log 20). -/
def State.withFetchWord (s : State) (nbits w : Nat) : State := placeTableWord s nbits w

end Sys2Proof.Machine
end

