-- ==== Sys2Proof/Safety.lean ====
section
/-! DEFINITION. The terms claims are stated in: a reset state, the end of a run, the queue's contents, what the trace says, the transfers
of the sequencer, and the invariants of the machine. -/

namespace Sys2Proof.Machine

/-- A reset state: the elements R26 gives a value have it; the others (Q, CNT, the shadow, HELD, ND, IN, the parameters) are whatever they
are (R160, R161). -/
structure State.IsReset (s : State) : Prop where
  head : s.head = 0
  count : s.count = 0
  cp : s.cp = .w0
  halt : s.halt = false
  pend : s.pend = none
  pcp : s.pcp = .p0
  tr : s.tr = []
  faults : s.faults = []

/-- A run is good when it is over, at `cp = DONE`, and no fault was raised (R172). -/
def State.isGood (s : State) : Bool := s.isDone && s.faults.isEmpty

/-- The entries the queue holds, oldest first: `Q[(HEAD + k) mod QMAX]` for `k < COUNT` (R13). -/
def State.contents (s : State) : List Word := (List.range s.count).map fun k => s.readQ ((s.head + k) % s.par.qmax)

/-- The events of the trace without their stamps. -/
def State.events (s : State) : List BusEvent := s.tr.map TraceEntry.event

/-- Bus events stamped with the counter's present value, as one step appends them (R22). -/
def State.stamped (s : State) (es : List BusEvent) : List TraceEntry := es.map fun e => { event := e, stamp := s.cnt }

/-- `TRW`: the trace without the reads of COUNTER (R22). -/
def State.trw (s : State) : List BusEvent :=
  s.events.filter fun
    | .rd .counter _ => false
    | .rd _ _ => true
    | .wr _ _ => true

/-- The words written to CLKDIV, in order. -/
def divisorWords (es : List BusEvent) : List Word :=
  es.filterMap fun
    | .wr .clkdiv w => some w
    | .wr _ _ => none
    | .rd _ _ => none

/-- The values read from COUNTER, in order. -/
def counterReads (es : List BusEvent) : List Word :=
  es.filterMap fun
    | .rd .counter v => some v
    | .rd _ _ => none
    | .wr _ _ => none

/-- The write events, in order. -/
def busWrites (es : List BusEvent) : List (Reg × Word) :=
  es.filterMap fun
    | .wr r w => some (r, w)
    | .rd _ _ => none

/-- The divisors written to the Target, in order: the low 24 bits of the words on CLKDIV (R53). -/
def State.written (s : State) : List Word24 := (divisorWords s.events).map divField

/-- The divisors on their way from the FIFO's input to the Target, oldest first, while the sequencer has not stopped: those written, the
one held and not yet written, and those in the queue. At W0 and S2 none is held (R91, R96). -/
def State.pipeline (s : State) : List Word24 :=
  s.written ++
    (match s.cp with
      | .e1 | .e2 | .e3 | .e4 | .e5 | .s0 | .s1 => [divField s.held]
      | .w0 | .s2 | .x1 | .x2 | .x3 | .done => []) ++
    s.contents.map divField

/-- The sequencer is in its stop sequence or has returned. -/
def State.stopping (s : State) : Bool :=
  match s.cp with
  | .x1 | .x2 | .x3 | .done => true
  | .w0 | .e1 | .e2 | .e3 | .e4 | .e5 | .s0 | .s1 | .s2 => false

/-- The transfers of `cp` R90 lists. -/
def successors : ControlPoint → List ControlPoint
  | .w0 => [.w0, .e1, .x1]
  | .e1 => [.e2]
  | .e2 => [.e3]
  | .e3 => [.e4]
  | .e4 => [.e5]
  | .e5 => [.s0]
  | .s0 => [.s0, .s1, .x1]
  | .s1 => [.s2, .x1]
  | .s2 => [.s0, .x1]
  | .x1 => [.x2]
  | .x2 => [.x3]
  | .x3 => [.done]
  | .done => []

/-- The writes the block makes: each belongs to one of the rows of the table with a bus word, on that row's register (R59, R61). -/
def BusEvent.lawful (p : Params) : BusEvent → Prop
  | .rd r _ => r = .counter ∨ r = .pinfsel
  | .wr .counter _ => False
  | .wr .clkctl w => w = wReset p ∨ w = wEnable p ∨ w = wMode p ∨ w = wOff p
  | .wr .clkdiv w => tagOf p w = p.tag
  | .wr .pinfsel w => pinField p w = p.fselClk ∨ pinField p w = fselIn

/-- The structural invariant: the bounds of R12, R13, R16 and R19, the canonical form of Q and its entries all written (R11), PEND present
exactly at P1 (R24, R83), no fault twice (R23), HALT set at DONE (R172), under legal parameters (R162). -/
structure State.Inv (s : State) : Prop where
  legal : s.par.legal = true
  queue : Memory.wf s.q
  head : s.head < s.par.qmax
  count : s.count ≤ s.par.qmax
  held : ∀ k < s.count, (Memory.read s.q ((s.head + k) % s.par.qmax)).isSome = true
  cnt : s.cnt < 2 ^ s.par.cw
  nd : s.nd < 2 ^ s.par.cw
  pend : s.pcp = .p1 ↔ s.pend.isSome = true
  faults : s.faults.Nodup
  done : s.cp = .done → s.halt = true

/-- Every event of the trace is one the block makes (R33, R61). -/
def State.TraceLawful (s : State) : Prop := ∀ e ∈ s.events, e.lawful s.par

/-- The four writes of ENABLE (R110), with the PINFSEL word they made. -/
def enableWrites (p : Params) (v : Word) : List (Reg × Word) :=
  [(.pinfsel, v), (.clkctl, wReset p), (.clkctl, wEnable p), (.clkctl, wMode p)]

/-- The writes of a run up to its stop: none, or the first `n` of ENABLE's, and then divisor writes. -/
def streamWrites (p : Params) (n : Nat) (ws : List (Reg × Word)) (divisors : List Word) : Prop :=
  ∃ v, pinField p v = p.fselClk ∧ ws = (enableWrites p v).take n ++ divisors.map fun d => (.clkdiv, d)

/-- The order of the writes on the bus over the whole run, as far as the control point has come (R42, R110, R116, R163): ENABLE's four
once, then divisors alone, then DISABLE's two once; a run that stops at W0 makes DISABLE's two alone. -/
def State.WritesInOrder (s : State) : Prop :=
  let stopped (tail : List (Reg × Word)) : Prop :=
    busWrites s.events = tail ∨ ∃ ws ds, streamWrites s.par 4 ws ds ∧ busWrites s.events = ws ++ tail
  match s.cp with
  | .w0 | .e1 => busWrites s.events = []
  | .e2 => streamWrites s.par 1 (busWrites s.events) []
  | .e3 => streamWrites s.par 2 (busWrites s.events) []
  | .e4 => streamWrites s.par 3 (busWrites s.events) []
  | .e5 => streamWrites s.par 4 (busWrites s.events) []
  | .s0 | .s1 | .s2 => ∃ ds, streamWrites s.par 4 (busWrites s.events) ds
  | .x1 => stopped []
  | .x2 => stopped [(.clkctl, wOff s.par)]
  | .x3 | .done => ∃ v, pinField s.par v = fselIn ∧ stopped [(.clkctl, wOff s.par), (.pinfsel, v)]

/-- How far the stop sequence has come, as the trace and the shadow show it (R97, R116, R134). -/
def State.StopInv (s : State) : Prop :=
  match s.cp with
  | .x2 => (∃ before, busWrites s.events = before ++ [(.clkctl, wOff s.par)]) ∧ s.tClkctl = 0#24
  | .x3 | .done =>
    (∃ before v, busWrites s.events = before ++ [(.clkctl, wOff s.par), (.pinfsel, v)] ∧ pinField s.par v = fselIn) ∧
      s.tClkctl = 0#24 ∧ s.outputDisabled = true
  | .w0 | .e1 | .e2 | .e3 | .e4 | .e5 | .s0 | .s1 | .s2 | .x1 => True

/-- `ND_k = (ND_0 + k * PERIOD) mod 2^CW` (R100). -/
def deadline (p : Params) (nd0 k : Nat) : Nat := (nd0 + k * p.period) % 2 ^ p.cw

/-- ND is the deadline of the divisor write the sequencer waits for: with `ND_0` the first value read from COUNTER and `k` divisors
written, `ND_k` before the write and `ND_(k-1)` after it (R93, R96, R100); before the counter is first read nothing is written. -/
def State.ScheduleInv (s : State) : Prop :=
  match s.cp with
  | .w0 | .e1 | .e2 | .e3 | .e4 | .e5 => counterReads s.events = [] ∧ divisorWords s.events = []
  | .s0 | .s1 =>
    ∃ c, (counterReads s.events).head? = some c ∧ s.nd = deadline s.par (countOf s.par c) (divisorWords s.events).length
  | .s2 =>
    ∃ c k, (counterReads s.events).head? = some c ∧ (divisorWords s.events).length = k + 1 ∧
      s.nd = deadline s.par (countOf s.par c) k
  | .x1 | .x2 | .x3 | .done => True

/-- At S1 the nearest earlier read of COUNTER found the deadline reached (R94, R101). -/
def State.ReachedInv (s : State) : Prop :=
  s.cp = .s1 → ∃ c, (counterReads s.events).getLast? = some c ∧ reached s.par.cw (countOf s.par c) s.nd = true

/-- The timing property of R101: for each divisor write of the trace, the nearest earlier read of COUNTER is at or past that write's
deadline. -/
def State.Timely (s : State) : Prop :=
  ∀ before w after, s.events = before ++ .wr .clkdiv w :: after →
    ∃ c0 c, (counterReads before).head? = some c0 ∧ (counterReads before).getLast? = some c ∧
      reached s.par.cw (countOf s.par c) (deadline s.par (countOf s.par c0) (divisorWords before).length) = true

/-- An agent that a schedule gives a turn again and again (R173). -/
def FairTo (schedule : Nat → Turn) (w : Turn) : Prop := ∀ n, ∃ m, n ≤ m ∧ schedule m = w

/-- The fairness R173 assumes: the Sequencer, the Counter and the Producer (whichever of its two steps it takes) are each scheduled again
and again; the HaltSource is under none. -/
structure WeaklyFair (schedule : Nat → Turn) : Prop where
  sequencer : FairTo schedule .sequencer
  counter : FairTo schedule .counter
  producer : ∀ n, ∃ m, n ≤ m ∧ (schedule m = .producer ∨ schedule m = .producerTimeout)

/-- How many of the first `n` turns of a schedule are an agent's. -/
def turnsOf (schedule : Nat → Turn) (w : Turn) (n : Nat) : Nat := ((List.range n).filter fun k => decide (schedule k = w)).length

/-- The state under other register addresses (R8, R38). -/
def State.withAddresses (s : State) (counter clkctl clkdiv pinfsel : Option Nat) : State :=
  { s with par := { s.par with addrCounter := counter, addrClkctl := clkctl, addrClkdiv := clkdiv, addrPinfsel := pinfsel } }

/-- The rational number a finite floating-point value stands for. -/
def finiteValue (neg : Bool) (man : Nat) (exp : Int) : Rat := (if neg then -1 else 1) * man * 2 ^ exp

/-- The longest way from a control point to DONE once HALT is set, in steps of the Sequencer (R102). -/
def stepsToDone : ControlPoint → Nat
  | .e1 => 9
  | .e2 => 8
  | .e3 => 7
  | .e4 => 6
  | .e5 => 5
  | .s1 => 6
  | .s2 => 5
  | .w0 => 4
  | .s0 => 4
  | .x1 => 3
  | .x2 => 2
  | .x3 => 1
  | .done => 0

/-- A sequence of queue operations by the one producer (`some d`: PUSH d) and the one consumer (`none`: PULL), with what was accepted and
what came out, in order (R72). -/
def fifoRun : List (Option Word) → State → List Word × List Word × State
  | [], s => ([], [], s)
  | some d :: ops, s =>
    let (accepted, out, t) := fifoRun ops (push d s).2
    (if (push d s).1 then d :: accepted else accepted, out, t)
  | none :: ops, s =>
    let (accepted, out, t) := fifoRun ops (pull s).2
    (accepted, (pull s).1.toList ++ out, t)

end Sys2Proof.Machine
end

