-- ==== Sys2Proof/Certificates/Slice0/Obligations.lean ====
section
/-! DEFINITION. The statements for the provers, from the numbered rules of spec/. Where a statement rests on a choice of the model its
docstring says so and names the log entry. -/

open Sys2Proof Sys2Proof.Machine

/-! ## Reset -/

/-- R26: the elements with a reset value have it, DONE is false, and the unspecified ones (CNT, the shadow, IN) are whatever they are. -/
def Obligations.ResetStatesHoldTheTableValues : Prop :=
  ∀ (par : Params) (inp : List Byte) (endless : Bool) (cnt : Nat) (pinfsel : Word) (clkctl clkdiv : Word24) (script : List Stim),
    let s := State.start par inp endless cnt pinfsel clkctl clkdiv script
    s.head = 0 ∧ s.count = 0 ∧ s.cp = .w0 ∧ s.halt = false ∧ s.isDone = false ∧ s.inp = inp ∧ s.inEndless = endless ∧
      s.pend = none ∧ s.pcp = .p0 ∧ s.tr = [] ∧ s.faults = [] ∧
      s.cnt = cnt ∧ s.tPinfsel = pinfsel ∧ s.tClkctl = clkctl ∧ s.tClkdiv = clkdiv

/-- Every reset state under legal parameters satisfies every invariant, whatever the unspecified elements hold (R26, R161, R162); the
model's own `State.reset` is one of them. -/
def Obligations.ResetStatesSatisfyTheInvariants : Prop :=
  (∀ s : State, s.IsReset → s.par.legal = true → Memory.wf s.q → s.cnt < 2 ^ s.par.cw → s.nd < 2 ^ s.par.cw →
    s.Inv ∧ s.TraceLawful ∧ s.WritesInOrder ∧ s.StopInv ∧ s.ScheduleInv ∧ s.ReachedInv ∧ s.Timely) ∧
  State.reset.IsReset ∧ State.reset.Inv

/-! ## Encoding -/

/-- R59 with the default parameters: words written out from the spec's table decode to their rows. -/
def Obligations.TheTableWordsDecodeToTheirRows : Prop :=
  decodeWrite Params.default .clkctl 0x5A000020#32 = .ok .ctlReset ∧
  decodeWrite Params.default .clkctl 0x5A000010#32 = .ok .ctlEnable ∧
  decodeWrite Params.default .clkctl 0x5A000216#32 = .ok .ctlMode ∧
  decodeWrite Params.default .clkctl 0x5A000000#32 = .ok .ctlOff ∧
  decodeWrite Params.default .clkdiv 0x5A004F9A#32 = .ok (.setdiv 0x004F9A#24) ∧
  decodeWrite Params.default .pinfsel 0x12344678#32 = .ok (.fselClk 0x12340678#32) ∧
  decodeWrite Params.default .pinfsel 0x12340678#32 = .ok (.fselIn 0x12340678#32)

/-- Decoding an encoded bus write gives it back with every field, for all legal parameters in which the two pin functions differ and the
mode word sets something besides the enable bit (R52 to R54, R59). -/
def Obligations.DecodingAnEncodedWriteGivesItBack : Prop :=
  ∀ (p : Params) (op : BusOp), p.legal = true → p.fselClk ≠ fselIn → (p.mashSel ≠ 0 ∨ p.srcSel ≠ 0) → op.wf p = true →
    decodeWrite p op.reg (encodeWord p op) = .ok op

/-- A word has one meaning on its register: encoding what a word decodes to gives the word back (R52 to R54, R59). -/
def Obligations.EncodingADecodedWordGivesItBack : Prop :=
  ∀ (p : Params) (r : Reg) (w : Word) (op : BusOp), p.sourceWidths = true → decodeWrite p r w = .ok op →
    op.reg = r ∧ encodeWord p op = w ∧ op.wf p = true

/-- R61: words no rule produces are rejected, each by its name. -/
def Obligations.WordsNoRuleProducesAreRejected : Prop :=
  ∀ (p : Params) (w : Word),
    decodeWrite p .counter w = .error .readOnlyRegister ∧
    (tagOf p w ≠ p.tag → decodeWrite p .clkctl w = .error .untagged ∧ decodeWrite p .clkdiv w = .error .untagged) ∧
    (tagOf p w = p.tag → w ∉ [wReset p, wEnable p, wMode p, wOff p] → decodeWrite p .clkctl w = .error .unknownControlWord) ∧
    (pinField p w ≠ p.fselClk → pinField p w ≠ fselIn → decodeWrite p .pinfsel w = .error .otherPinFunction)

/-- R52: the assembled control word is the sum of its fields at their places, TAG on top, every other bit 0. -/
def Obligations.ControlWordsAreTheSumOfTheirFields : Prop :=
  ∀ (p : Params) (mash reset enab src : Nat), p.legal = true → mash < 2 ^ p.ctlMashW → reset ≤ 1 → enab ≤ 1 → src < 2 ^ p.ctlSrcW →
    (ctlWord p mash reset enab src).toNat =
      p.tag.toNat * 2 ^ 24 + mash * 2 ^ p.ctlMashLo + reset * 2 ^ p.ctlResetBit + enab * 2 ^ p.ctlEnabBit + src * 2 ^ p.ctlSrcLo

/-! ## The bus primitives and the counter's arithmetic -/

/-- R33: what a bus read answers and appends; a read of CLKCTL or CLKDIV is refused. -/
def Obligations.BusReadsAnswerTheCounterAndThePins : Prop :=
  ∀ s : State,
    (s.cnt < 2 ^ 32 → ∃ v : Word, v.toNat = s.cnt ∧
      memRead .counter s = .ok (v, { s with tr := s.tr ++ s.stamped [.rd .counter v] })) ∧
    memRead .pinfsel s = .ok (s.tPinfsel, { s with tr := s.tr ++ s.stamped [.rd .pinfsel s.tPinfsel] }) ∧
    memRead .clkctl s = .error (.notReadable .clkctl) ∧ memRead .clkdiv s = .error (.notReadable .clkdiv)

/-- R34: what a bus write appends and does to the shadow; an untagged write leaves it; a write to COUNTER does not exist. The widths are the
source's (R6). -/
def Obligations.BusWritesUpdateTheShadow : Prop :=
  ∀ (s : State) (v : Word), s.par.sourceWidths = true →
    memWrite .pinfsel v s = .ok { s with tr := s.tr ++ s.stamped [.wr .pinfsel v], tPinfsel := v } ∧
    (v.extractLsb' 24 8 = s.par.tag →
      memWrite .clkctl v s = .ok { s with tr := s.tr ++ s.stamped [.wr .clkctl v], tClkctl := v.extractLsb' 0 24 } ∧
      memWrite .clkdiv v s = .ok { s with tr := s.tr ++ s.stamped [.wr .clkdiv v], tClkdiv := v.extractLsb' 0 24 }) ∧
    (v.extractLsb' 24 8 ≠ s.par.tag →
      memWrite .clkctl v s = .ok { s with tr := s.tr ++ s.stamped [.wr .clkctl v] } ∧
      memWrite .clkdiv v s = .ok { s with tr := s.tr ++ s.stamped [.wr .clkdiv v] }) ∧
    memWrite .counter v s = .error (.notWritable .counter)

/-- R40: the signed-difference test, as the sign, as the top bit, and as distances before and past the deadline. -/
def Obligations.DeadlineReachedExactlyWithinHalfATurnPast : Prop :=
  ∀ cw c nd : Nat, 1 ≤ cw → c < 2 ^ cw → nd < 2 ^ cw →
    (reached cw c nd = true ↔ 0 ≤ sint cw (ticksPast cw c nd)) ∧
    (reached cw c nd = true ↔ (ticksPast cw c nd).testBit (cw - 1) = false) ∧
    (ticksPast cw c nd + nd) % 2 ^ cw = c ∧
    (reached cw c nd = true ↔ ∃ k < 2 ^ (cw - 1), c = (nd + k) % 2 ^ cw) ∧
    (reached cw c nd = false ↔ ∃ k, 1 ≤ k ∧ k ≤ 2 ^ (cw - 1) ∧ nd = (c + k) % 2 ^ cw) ∧
    reached cw c c = true

/-! ## The FIFO -/

/-- R70: PUSH on a queue with room stores at `(HEAD + COUNT) mod QMAX` and counts; on a full one it changes nothing; every other queue word
reads as before, and nothing but Q and COUNT changes. -/
def Obligations.PushStoresBehindTheLastEntryOrFails : Prop :=
  ∀ (d : Word) (s : State), ∃ t, exec (.push d) s = .next t ∧ t = { s with q := t.q, count := t.count } ∧
    (s.count < s.par.qmax → (push d s).1 = true ∧ t.count = s.count + 1 ∧ t.readQ ((s.head + s.count) % s.par.qmax) = d ∧
      ∀ i, i ≠ (s.head + s.count) % s.par.qmax → t.readQ i = s.readQ i) ∧
    (¬ s.count < s.par.qmax → (push d s).1 = false ∧ t = s)

/-- R71: PULL on a queue with an entry answers the word at HEAD, moves HEAD on mod QMAX and counts down, and leaves every queue word; on an
empty one it changes nothing. -/
def Obligations.PullTakesTheWordAtHeadOrFails : Prop :=
  ∀ s : State,
    (0 < s.count → (pull s).1 = some (s.readQ s.head) ∧
      exec .pull s = .next { s with head := (s.head + 1) % s.par.qmax, count := s.count - 1 }) ∧
    (s.count = 0 → (pull s).1 = none ∧ exec .pull s = .next s)

/-- The queue as a list: PUSH appends its operand, PULL takes the first entry (R13, R70, R71). -/
def Obligations.QueueOperationsActOnTheListOfEntries : Prop :=
  ∀ (d : Word) (s : State), s.Inv →
    (push d s).2.contents = (if s.count < s.par.qmax then s.contents ++ [d] else s.contents) ∧
    (match (pull s).1 with
      | some v => s.contents = v :: (pull s).2.contents
      | none => s.contents = [] ∧ (pull s).2 = s)

/-- R72: over any sequence of pushes and pulls, what came out and then what is still held is what was held and then what was accepted, in
order; from an empty queue what came out is a prefix of what was accepted. -/
def Obligations.ValuesComeOutInTheOrderPushed : Prop :=
  ∀ (ops : List (Option Word)) (s : State), s.Inv →
    s.contents ++ (fifoRun ops s).1 = (fifoRun ops s).2.1 ++ (fifoRun ops s).2.2.contents ∧
    (s.count = 0 → (fifoRun ops s).2.1 <+: (fifoRun ops s).1)

/-- R73: the two operations succeed exactly where the rule says, COUNT never exceeds QMAX, and over any sequence of queue operations COUNT
is what was held and was accepted less what came out. -/
def Obligations.CountStaysWithinTheQueue : Prop :=
  (∀ (d : Word) (s : State), ((push d s).1 = true ↔ s.count < s.par.qmax) ∧ ((pull s).1.isSome = true ↔ 0 < s.count)) ∧
  ∀ (ops : List (Option Word)) (s : State), s.count ≤ s.par.qmax →
    (fifoRun ops s).2.2.count ≤ s.par.qmax ∧
    (fifoRun ops s).2.2.count + (fifoRun ops s).2.1.length = s.count + (fifoRun ops s).1.length

/-! ## The producer -/

/-- The source's worked divisors and the vectors of 95_test_vectors.md that tell truncation from rounding and binary64 from binary32. -/
def Obligations.ConversionGivesTheWorkedDivisors : Prop :=
  convert Params.default 0 = some 20378#32 ∧ convert Params.default (-32768) = some 20393#32 ∧
  convert Params.default 32767 = some 20362#32 ∧ convert Params.default (-32061) = some 20392#32 ∧
  convert { Params.default with fmt := Config.binary32 } (-32061) = some 20393#32 ∧
  convert { Params.default with freqMhz := .fin false 5404319552844595 (-56) } (-32768) = none

/-- CONV: a result goes to PEND and the Producer to P1; without one ConvRange is recorded, nothing is pushed and the Producer stops
(R80, R82). That the result goes to PEND when CONV is taken by itself is the model's reading (log 10). -/
def Obligations.ConvFillsPendOrRecordsConvRange : Prop :=
  ∀ (v : Int) (s : State),
    (∀ d, convert s.par v = some d → exec (.conv v) s = .next { s with pend := some d, pcp := .p1 }) ∧
    (convert s.par v = none → ∃ t, exec (.conv v) s = .next t ∧ t = { s with faults := t.faults, pcp := .pdone } ∧
      ∀ f, f ∈ t.faults ↔ f ∈ s.faults ∨ f = .convRange v)

/-- CONV is the formula of R80, line by line, and its integer part: the scaled quotient is the five operations in their order (with DEV_MHZ
as log 11 reads it); a conversion has a result exactly where that quotient is finite and its integer part is in 0..2^32-1, and the result is
that integer part, toward zero, so at most the quotient's size and within 1 of it (R80, R82). -/
def Obligations.ConversionFollowsTheFormulaAndTruncates : Prop :=
  (∀ (p : Params) (v : Int), p.sourceWidths = true → p.frac = 12 →
    ∃ x y f q : Flt, x = Flt.div p.fmt (.ofInt v) (.ofInt 32768) ∧ y = Flt.mul p.fmt x (Flt.div p.fmt p.devKhz (.ofInt 1000)) ∧
      f = Flt.add p.fmt p.freqMhz y ∧ q = Flt.div p.fmt p.clockSourceMhz f ∧ scaledDivisor p v = Flt.mul p.fmt q (.ofInt 4096)) ∧
  (∀ (p : Params) (v : Int) (d : Word), p.sourceWidths = true → (convert p v = some d ↔
    ∃ t : Int, (scaledDivisor p v).trunc = some t ∧ 0 ≤ t ∧ t < 2 ^ 32 ∧ (d.toNat : Int) = t)) ∧
  Flt.nan.trunc = none ∧ (∀ neg, (Flt.inf neg).trunc = none) ∧
  ∀ (neg : Bool) (m : Nat) (e : Int), ∃ t : Int, (Flt.fin neg m e).trunc = some t ∧
    t.natAbs * 2 ^ (-e).toNat ≤ m * 2 ^ e.toNat ∧ m * 2 ^ e.toNat < (t.natAbs + 1) * 2 ^ (-e).toNat ∧
    (0 < t → neg = false) ∧ (t < 0 → neg = true)

/-- Rounding a fraction to a format (R81: round to nearest even): the significand fits and has its leading bit unless the exponent is the
least; the value is within half a last place of the fraction, and in a tie even; where the significand is the least with its leading bit and
the fraction lies below, where the format's values are twice as close, within a quarter: so no value of the format is nearer. An infinity
only at or past the overflow threshold. The IEEE details beyond R81's words are log 26. -/
def Obligations.RoundingIsToNearestEven : Prop :=
  (∀ (f : FloatFormat) (neg : Bool) (num den : Nat), 2 ≤ f.prec → f.minExp ≤ f.maxExp → 0 < num → 0 < den →
    (∃ m e, Flt.round f neg num den = .fin neg m e ∧ m < 2 ^ f.prec ∧ f.minExp ≤ e ∧ e ≤ f.maxExp ∧
      (2 ^ (f.prec - 1) ≤ m ∨ e = f.minExp) ∧
      2 * ((num * 2 ^ (-e).toNat : Nat) - (m * den * 2 ^ e.toNat : Nat) : Int).natAbs ≤ den * 2 ^ e.toNat ∧
      (2 * ((num * 2 ^ (-e).toNat : Nat) - (m * den * 2 ^ e.toNat : Nat) : Int).natAbs = den * 2 ^ e.toNat → m % 2 = 0) ∧
      (m = 2 ^ (f.prec - 1) → f.minExp < e → num * 2 ^ (-e).toNat < m * den * 2 ^ e.toNat →
        4 * (m * den * 2 ^ e.toNat - num * 2 ^ (-e).toNat) ≤ den * 2 ^ e.toNat)) ∨
    (Flt.round f neg num den = .inf neg ∧
      (2 ^ (f.prec + 1) - 1) * den * 2 ^ f.maxExp.toNat ≤ 2 * num * 2 ^ (-f.maxExp).toNat)) ∧
  ∀ (f : FloatFormat) (neg : Bool) (den : Nat), Flt.round f neg 0 den = .fin neg 0 0

/-- Each operation of R80 on finite values is the exact result rounded once (R81); a quotient by 0 is an infinity, or not a number for
0 / 0, and an exact sum of 0 is negative only if both terms are (log 26). -/
def Obligations.OperationsAreExactAndRoundedOnce : Prop :=
  (∀ i : Int, ∃ neg m, Flt.ofInt i = .fin neg m 0 ∧ finiteValue neg m 0 = i) ∧
  ∀ (f : FloatFormat) (a b : Bool) (m n : Nat) (e g : Int),
    (∃ num den : Nat, 0 < den ∧ (num : Rat) / den = (m * 2 ^ e) * (n * 2 ^ g) ∧
      Flt.mul f (.fin a m e) (.fin b n g) = Flt.round f (a != b) num den) ∧
    (n ≠ 0 → ∃ num den : Nat, 0 < den ∧ (num : Rat) / den = (m * 2 ^ e) / (n * 2 ^ g) ∧
      Flt.div f (.fin a m e) (.fin b n g) = Flt.round f (a != b) num den) ∧
    Flt.div f (.fin a m e) (.fin b 0 g) = (if m = 0 then .nan else .inf (a != b)) ∧
    (∃ (num den : Nat) (neg : Bool), 0 < den ∧
      (if neg then -1 else 1) * ((num : Rat) / den) = finiteValue a m e + finiteValue b n g ∧ (num = 0 → neg = (a && b)) ∧
      Flt.add f (.fin a m e) (.fin b n g) = Flt.round f neg num den)

/-- R64, R35: the byte at the lower stream position is the low byte of the two's-complement sample. -/
def Obligations.SamplesAreLittleEndianSigned : Prop :=
  ∀ (p : Params) (b0 b1 : Byte), p.sourceWidths = true →
    sampleOf p [b0, b1] = sint 16 (256 * b1.toNat + b0.toNat) ∧ (Instr.conv (sampleOf p [b0, b1])).wf p = true

/-- R83: the Producer's normal step at each of its two control points, in the rule's order of tests. A stream without end goes on with the
free bytes of the configuration, whatever they are, also for a sample whose first byte is the last listed one (R24; the form of the endless
part is the model's, log 13). -/
def Obligations.ProduceTakesTheStepOfItsControlPoint : Prop :=
  ∀ s : State, s.par.sourceWidths = true →
    (s.pcp = .p0 → s.halt = true → exec (.produce false) s = .next { s with pcp := .pdone }) ∧
    (s.pcp = .p0 → s.halt = false → s.inp = [] → s.inEndless = false → exec (.produce false) s = .next { s with pcp := .pdone }) ∧
    (∀ b, s.pcp = .p0 → s.halt = false → s.inp = [b] → s.inEndless = false →
      ∃ t, exec (.produce false) s = .next t ∧ t = { s with faults := t.faults, halt := true, pcp := .pdone } ∧
        ∀ f, f ∈ t.faults ↔ f ∈ s.faults ∨ f = .shortRead) ∧
    (∀ b0 b1 rest d, s.pcp = .p0 → s.halt = false → s.inp = b0 :: b1 :: rest → convert s.par (sampleOf s.par [b0, b1]) = some d →
      exec (.produce false) s = .next { s with inp := rest, pend := some d, pcp := .p1 }) ∧
    (∀ b0 b1 rest, s.pcp = .p0 → s.halt = false → s.inp = b0 :: b1 :: rest → convert s.par (sampleOf s.par [b0, b1]) = none →
      ∃ t, exec (.produce false) s = .next t ∧ t = { s with inp := rest, faults := t.faults, pcp := .pdone } ∧
        ∀ f, f ∈ t.faults ↔ f ∈ s.faults ∨ f = .convRange (sampleOf s.par [b0, b1])) ∧
    (s.pcp = .p0 → s.halt = false → s.inEndless = true → s.inp = [] → exec (.produce false) s =
      exec (.conv (sampleOf s.par [Config.streamByte s.inPos, Config.streamByte (s.inPos + 1)])) { s with inPos := s.inPos + 2 }) ∧
    (∀ b, s.pcp = .p0 → s.halt = false → s.inEndless = true → s.inp = [b] → exec (.produce false) s =
      exec (.conv (sampleOf s.par [b, Config.streamByte s.inPos])) { s with inp := [], inPos := s.inPos + 1 }) ∧
    (∀ d, s.pcp = .p1 → s.pend = some d → s.count < s.par.qmax →
      exec (.produce false) s =
        .next { s with q := Memory.write s.q ((s.head + s.count) % s.par.qmax) d, count := s.count + 1, pend := none, pcp := .p0 }) ∧
    (∀ d, s.pcp = .p1 → s.pend = some d → ¬ s.count < s.par.qmax → s.halt = true →
      exec (.produce false) s = .next { s with pend := none, pcp := .pdone }) ∧
    (∀ d, s.pcp = .p1 → s.pend = some d → ¬ s.count < s.par.qmax → s.halt = false → exec (.produce false) s = .next s)

/-- The timeout step at any point where the Producer has a step, if a timeout is configured, and only then; at PDONE no step is left
(R84, R86). That the choice is an operand of PRODUCE is the model's form (log 12). -/
def Obligations.TimeoutHaltsAndStopsTheProducer : Prop :=
  ∀ s : State,
    (s.par.timeoutS.isSome = true → s.pcp ≠ .pdone →
      exec (.produce true) s = .next { s with halt := true, pend := none, pcp := .pdone }) ∧
    (s.par.timeoutS = none → exec (.produce true) s = exec (.produce false) s) ∧
    (∀ late, s.pcp = .pdone → exec (.produce late) s = .next s)

/-! ## The sequencer -/

/-- R91: halt before data. -/
def Obligations.WaitForTheFirstDivisor : Prop :=
  ∀ s : State, s.par.haltFirst = true →
    (s.halt = true → exec .wait1 s = .next { s with cp := .x1 }) ∧
    (s.halt = false → 0 < s.count → exec .wait1 s =
      .next { s with held := s.readQ s.head, head := (s.head + 1) % s.par.qmax, count := s.count - 1, cp := .e1 }) ∧
    (s.halt = false → s.count = 0 → exec .wait1 s = .next { s with cp := .w0 })

/-- With HALT_FIRST false the flag is tested after data and after the deadline. R8 names the parameter and its default and does not write
these steps out: they are the model's reading (log 9). -/
def Obligations.LateHaltTestTakesDataAndDeadlineFirst : Prop :=
  ∀ s : State, s.par.haltFirst = false → s.cnt < 2 ^ s.par.cw → s.par.cw ≤ 32 →
    (0 < s.count → exec .wait1 s =
      .next { s with held := s.readQ s.head, head := (s.head + 1) % s.par.qmax, count := s.count - 1, cp := .e1 }) ∧
    (s.count = 0 → exec .wait1 s = .next { s with cp := if s.halt then .x1 else .w0 }) ∧
    exec .waitdl s = .next { s with
      tr := s.tr ++ s.stamped [.rd .counter (BitVec.ofNat 32 s.cnt)]
      cp := if reached s.par.cw s.cnt s.nd then .s1 else if s.halt then .x1 else .s0 }

/-- R93: the counter read into ND, one event on the trace. -/
def Obligations.ReadCounterIntoTheFirstDeadline : Prop :=
  ∀ s : State, s.cnt < 2 ^ s.par.cw → s.par.cw ≤ 32 → ∃ v : Word, v.toNat = s.cnt ∧
    exec .rdcnt s = .next { s with nd := s.cnt, tr := s.tr ++ s.stamped [.rd .counter v], cp := .s0 }

/-- R94: halt before the deadline and before the read. -/
def Obligations.WaitForTheDeadline : Prop :=
  ∀ s : State, s.par.haltFirst = true → s.cnt < 2 ^ s.par.cw → s.par.cw ≤ 32 →
    (s.halt = true → exec .waitdl s = .next { s with cp := .x1 }) ∧
    (s.halt = false → ∃ v : Word, v.toNat = s.cnt ∧
      exec .waitdl s = .next { s with
        tr := s.tr ++ s.stamped [.rd .counter v]
        cp := if reached s.par.cw s.cnt s.nd then .s1 else .s0 })

/-- R95, R115, R143, R60: a divisor below 2^24 is written whole under the tag, once, and reaches the shadow; one of 2^24 or more is not
written, the fault joins FAULTS, and the sequencer goes to the stop sequence. -/
def Obligations.SetdivWritesTheHeldDivisorOrFaults : Prop :=
  ∀ s : State, s.par.sourceWidths = true →
    (s.held.toNat < 2 ^ 24 → ∃ w : Word, w.toNat = s.par.tag.toNat * 2 ^ 24 + s.held.toNat ∧
      exec .setdiv s = .next { s with
        tr := s.tr ++ s.stamped [.wr .clkdiv w]
        tClkdiv := s.held.extractLsb' 0 24
        cp := .s2 }) ∧
    (2 ^ 24 ≤ s.held.toNat → ∃ t, exec .setdiv s = .next t ∧ t = { s with faults := t.faults, cp := .x1 } ∧
      ∀ f, f ∈ t.faults ↔ f ∈ s.faults ∨ f = .divisorRange s.held)

/-- R96, R41: the next divisor and deadline, or the underflow, which advances nothing. -/
def Obligations.NextDivisorAndDeadlineOrUnderflow : Prop :=
  ∀ s : State,
    (0 < s.count → exec .next s = .next { s with
      held := s.readQ s.head
      head := (s.head + 1) % s.par.qmax
      count := s.count - 1
      nd := (s.nd + s.par.period) % 2 ^ s.par.cw
      cp := .s0 }) ∧
    (s.count = 0 → exec .next s = .next { s with cp := .x1 })

/-- R97: the stop sequence is CTL_OFF, FSEL_IN and SETHALT, and from X1 the Sequencer's next three steps are those; HALT is set by the
third alone. -/
def Obligations.StopSequenceSwitchesOffThenSetsHalt : Prop :=
  (∀ s : State, exec .sethalt s = .next { s with halt := true, cp := .done }) ∧
  ∀ s : State, s.par.legal = true → s.cp = .x1 →
    runUnder (fun _ => .sequencer) 0 2 s = exec .disable s ∧
    runUnder (fun _ => .sequencer) 0 3 s = .next { s with
      tr := s.tr ++ s.stamped [.wr .clkctl (wOff s.par), .rd .pinfsel s.tPinfsel, .wr .pinfsel (fselWord s.par s.tPinfsel fselIn)]
      tClkctl := 0#24
      tPinfsel := fselWord s.par s.tPinfsel fselIn
      halt := true
      cp := .done }

/-! ## The register writer -/

/-- R111, R118, R54: the read-modify-write of PINFSEL: the target field becomes the operation's function, every other bit is written back
as read, and the trace gains the read and then the write. -/
def Obligations.PinFunctionWritesChangeTheTargetFieldOnly : Prop :=
  ∀ s : State, s.par.fselw = 3 → s.par.pinShift + 3 ≤ 32 →
    (∃ w : Word, exec .fselClk s = .next { s with
        tr := s.tr ++ s.stamped [.rd .pinfsel s.tPinfsel, .wr .pinfsel w], tPinfsel := w, cp := .e2 } ∧
      w.extractLsb' s.par.pinShift 3 = s.par.fselClk ∧
      ∀ i, i < s.par.pinShift ∨ s.par.pinShift + 3 ≤ i → w.getLsbD i = s.tPinfsel.getLsbD i) ∧
    (∃ w : Word, exec .fselIn s = .next { s with
        tr := s.tr ++ s.stamped [.rd .pinfsel s.tPinfsel, .wr .pinfsel w], tPinfsel := w, cp := .x3 } ∧
      w.extractLsb' s.par.pinShift 3 = 0#3 ∧
      ∀ i, i < s.par.pinShift ∨ s.par.pinShift + 3 ≤ i → w.getLsbD i = s.tPinfsel.getLsbD i)

/-- R112, R113, R114, R117: each clock-control write appends its word, replaces the shadow by the word's low 24 bits, and goes to its
successor; nothing else changes. -/
def Obligations.ClockControlWritesReplaceTheShadow : Prop :=
  ∀ s : State, s.par.legal = true →
    exec .ctlReset s = .next { s with
      tr := s.tr ++ s.stamped [.wr .clkctl (ctlWord s.par 0 1 0 0)], tClkctl := (ctlWord s.par 0 1 0 0).extractLsb' 0 24, cp := .e3 } ∧
    exec .ctlEnable s = .next { s with
      tr := s.tr ++ s.stamped [.wr .clkctl (ctlWord s.par 0 0 1 0)], tClkctl := (ctlWord s.par 0 0 1 0).extractLsb' 0 24, cp := .e4 } ∧
    exec .ctlMode s = .next { s with
      tr := s.tr ++ s.stamped [.wr .clkctl (ctlWord s.par s.par.mashSel 0 1 s.par.srcSel)]
      tClkctl := (ctlWord s.par s.par.mashSel 0 1 s.par.srcSel).extractLsb' 0 24
      cp := .e5 } ∧
    exec .ctlOff s = .next { s with
      tr := s.tr ++ s.stamped [.wr .clkctl (ctlWord s.par 0 0 0 0)], tClkctl := 0#24, cp := .x2 }

/-- R110, R119: ENABLE makes its five events in their order, changes nothing but the trace, the shadow and `cp`, and leaves the output
enabled. -/
def Obligations.EnableWritesInOrderAndEnables : Prop :=
  ∀ s : State, s.par.legal = true → ∃ t, exec .enable s = .next t ∧ t.outputEnabled = true ∧
    t = { s with
      tr := s.tr ++ s.stamped [.rd .pinfsel s.tPinfsel, .wr .pinfsel (fselWord s.par s.tPinfsel s.par.fselClk),
        .wr .clkctl (wReset s.par), .wr .clkctl (wEnable s.par), .wr .clkctl (wMode s.par)]
      tPinfsel := fselWord s.par s.tPinfsel s.par.fselClk
      tClkctl := (wMode s.par).extractLsb' 0 24
      cp := .e5 }

/-- R116, R119: DISABLE makes its three events in their order, changes nothing but the trace, the shadow and `cp`, and leaves the output
disabled, whatever the Target held before. -/
def Obligations.DisableWritesInOrderAndDisables : Prop :=
  ∀ s : State, s.par.legal = true → ∃ t, exec .disable s = .next t ∧ t.outputDisabled = true ∧
    t = { s with
      tr := s.tr ++ s.stamped [.wr .clkctl (wOff s.par), .rd .pinfsel s.tPinfsel, .wr .pinfsel (fselWord s.par s.tPinfsel fselIn)]
      tPinfsel := fselWord s.par s.tPinfsel fselIn
      tClkctl := 0#24
      cp := .x3 }

/-- R119: a second ENABLE, and a second DISABLE, leaves the shadow bit for bit as the first did, while the trace gains its events again. -/
def Obligations.EnableAndDisableAreIdempotentOnTheShadow : Prop :=
  ∀ s : State, s.par.legal = true →
    (∃ t u, exec .enable s = .next t ∧ exec .enable t = .next u ∧ u.tPinfsel = t.tPinfsel ∧ u.tClkctl = t.tClkctl ∧
      u.tClkdiv = s.tClkdiv ∧ t.tr.length = s.tr.length + 5 ∧ u.tr.length = t.tr.length + 5) ∧
    (∃ t u, exec .disable s = .next t ∧ exec .disable t = .next u ∧ u.tPinfsel = t.tPinfsel ∧ u.tClkctl = t.tClkctl ∧
      u.tClkdiv = s.tClkdiv ∧ t.tr.length = s.tr.length + 3 ∧ u.tr.length = t.tr.length + 3)

/-- The composites are their steps: from E1 the Sequencer's next four steps make ENABLE, from X1 its next two make DISABLE
(R92, R97, R110, R116). -/
def Obligations.CompositesAreTheirSteps : Prop :=
  ∀ s : State,
    (s.cp = .e1 → runUnder (fun _ => .sequencer) 0 4 s = exec .enable s) ∧
    (s.cp = .x1 → runUnder (fun _ => .sequencer) 0 2 s = exec .disable s)

/-! ## Halt and environment -/

/-- R130, R135: a halt request sets HALT and touches nothing else; a tick moves the counter on by one, wraps at its width, and touches
nothing else. -/
def Obligations.HaltRequestsAndTicksTouchOneElement : Prop :=
  ∀ s : State, exec .haltreq s = .next { s with halt := true } ∧
    (s.cnt + 1 < 2 ^ s.par.cw → exec .tick s = .next { s with cnt := s.cnt + 1 }) ∧
    (s.cnt + 1 = 2 ^ s.par.cw → exec .tick s = .next { s with cnt := 0 })

/-- R131: the operations that turn HALT from 0 to 1 are exactly the halt request, SETHALT, the Producer's configured timeout, and its short
read. -/
def Obligations.HaltIsSetByExactlyTheListedSources : Prop :=
  ∀ (i : Instr) (s t : State), exec i s = .next t → s.halt = false →
    (t.halt = true ↔ i = .haltreq ∨ i = .sethalt ∨
      (i = .produce true ∧ s.par.timeoutS.isSome = true ∧ s.pcp ≠ .pdone) ∨
      (∃ late, i = .produce late ∧ ¬ (late = true ∧ s.par.timeoutS.isSome = true) ∧ s.pcp = .p0 ∧
        s.inp ≠ [] ∧ s.inp.length < s.par.sampleBytes ∧ s.inEndless = false))

/-- R132: no operation and no step clears HALT, and two settings in either order leave one state. -/
def Obligations.NothingClearsHalt : Prop :=
  (∀ (i : Instr) (s t : State), exec i s = .next t → s.halt = true → t.halt = true) ∧
  (∀ s t : State, step s = .next t → s.halt = true → t.halt = true) ∧
  ∀ s : State, andThen (exec .haltreq s) (exec .sethalt) = andThen (exec .sethalt s) (exec .haltreq)

/-! ## The whole machine -/

/-- A step runs the operation its selector decodes to, in the state that differs from the step's only in the stimulus still to come; where
nothing is selected, or the selector decodes to no operation, only the stimulus moves on (R50; the stimulus is the model's, log 5). -/
def Obligations.StepRunsTheSelectedOperation : Prop :=
  ∀ s : State, (∃ script turn, (fetch s).2 = { s with script := script, turn := turn }) ∧
    (∀ x i, (fetch s).1 = some x → decodeSelector s.par x = .ok i → step s = exec i (fetch s).2) ∧
    (∀ x r, (fetch s).1 = some x → decodeSelector s.par x = .error r → step s = .next (fetch s).2) ∧
    ((fetch s).1 = none → step s = .next (fetch s).2)

/-- The lines of a stimulus script run the operations R63 gives them (how a line is taken off the script is the model's, logs 5, 8 and 21;
that a `sample` line makes no test of HALT and takes nothing off IN is log 30). -/
def Obligations.ScriptLinesRunTheirOperations : Prop :=
  ∀ (s : State) (rest : List Stim),
    (∀ d, s.script = .push d :: rest → step s = exec (.push d) { s with script := rest }) ∧
    (s.script = .halt :: rest → step s = exec .haltreq { s with script := rest }) ∧
    (∀ n, s.script = .tick (n + 1) :: rest → step s = exec .tick { s with script := .tick n :: rest }) ∧
    (s.script = .tick 0 :: rest → step s = .next { s with script := rest }) ∧
    (∀ i, s.script = .seq :: rest → decodePoint s.cp = .ok i → step s = exec i { s with script := rest }) ∧
    (s.script = .seq :: rest → s.cp = .done → step s = .next { s with script := rest }) ∧
    (∀ i, s.script = .seqStar :: rest → spinning s = false → decodePoint s.cp = .ok i → step s = exec i s) ∧
    (s.script = .seqStar :: rest → spinning s = true → step s = .next { s with script := rest }) ∧
    (∀ v, s.script = .sample v :: rest → s.pcp = .p0 → (Instr.conv v).wf s.par = true →
      step s = exec (.conv v) { s with script := .offer :: rest }) ∧
    (∀ v, s.script = .sample v :: rest → s.pcp = .p1 → step s = exec (.produce false) s) ∧
    (∀ v, s.script = .sample v :: rest → s.pcp = .pdone → step s = .next { s with script := rest }) ∧
    (s.script = .offer :: rest → s.pcp = .p1 → step s = exec (.produce false) s) ∧
    (s.script = .offer :: rest → s.pcp ≠ .p1 → step s = .next { s with script := rest }) ∧
    (s.script = .produce :: rest → step s = takeTurn .producer { s with script := rest }) ∧
    (s.script = .timeout :: rest → step s = takeTurn .producerTimeout { s with script := rest })

/-- With no script left, a step is the turn of the agent the free schedule names (log 5); an agent's turn runs the operation its control
point selects, or, where it has no step, changes nothing (R50, R84, R98, R130, R135; log 8); and the Sequencer's turn leaves `cp` as it is
exactly where `seq*` ends (R63, R90). -/
def Obligations.TurnsRunTheOperationsOfTheirAgents : Prop :=
  (∀ s : State, s.script = [] → step s = takeTurn (Config.schedule s.turn) { s with turn := s.turn + 1 }) ∧
  ∀ s : State,
    (∀ i, decodePoint s.cp = .ok i → takeTurn .sequencer s = exec i s) ∧ (s.cp = .done → takeTurn .sequencer s = .next s) ∧
    (s.pcp ≠ .pdone → takeTurn .producer s = exec (.produce false) s ∧ takeTurn .producerTimeout s = exec (.produce true) s) ∧
    (s.pcp = .pdone → takeTurn .producer s = .next s ∧ takeTurn .producerTimeout s = .next s) ∧
    takeTurn .counter s = exec .tick s ∧ takeTurn .haltSource s = exec .haltreq s ∧
    ∃ t, takeTurn .sequencer s = .next t ∧ (t.cp = s.cp ↔ spinning s = true)

/-- Every operation completes: where PEND is present at P1, as it is in every run, exec answers a next state for each of the twenty
(R120: every bus access has one outcome, success; R44: a queue operation always completes). -/
def Obligations.EveryOperationCompletes : Prop :=
  ∀ (i : Instr) (s : State), (s.pcp = .p1 → s.pend.isSome = true) → ∃ t, exec i s = .next t

/-- Every step keeps the structural invariant (R11, R12, R13, R16, R19, R23, R24, R172), whichever agent moves. -/
def Obligations.StepKeepsTheStructuralInvariant : Prop :=
  ∀ s t : State, s.Inv → step s = .next t → t.Inv

/-- In a state of the structural invariant the machine never stops. -/
def Obligations.TheMachineNeverStops : Prop :=
  ∀ s : State, s.Inv → ∃ t, step s = .next t

/-- R90: a step leaves `cp` or takes one of the listed transfers. -/
def Obligations.OnlyTheListedTransfersHappen : Prop :=
  ∀ s t : State, step s = .next t → t.cp = s.cp ∨ t.cp ∈ successors s.cp

/-- A step leaves the parameters, only appends to the trace, and only adds to FAULTS (R22, R23, R25). -/
def Obligations.HistoryOnlyGrows : Prop :=
  ∀ s t : State, step s = .next t → t.par = s.par ∧ s.tr <+: t.tr ∧ ∀ f, f ∈ s.faults → f ∈ t.faults

/-- At DONE the Sequencer has no step, and no step of any agent moves `cp`, appends a bus event, or changes the shadow, HELD or ND (R98, R14,
R121, R151). That the Sequencer's turn there is a step that changes nothing is the model's choice (log 8). -/
def Obligations.DoneIsTerminal : Prop :=
  ∀ s : State, s.cp = .done → takeTurn .sequencer s = .next s ∧
    ∀ t, step s = .next t → t.cp = .done ∧ t.tr = s.tr ∧ t.tPinfsel = s.tPinfsel ∧ t.tClkctl = s.tClkctl ∧ t.tClkdiv = s.tClkdiv ∧
      t.held = s.held ∧ t.nd = s.nd

/-- Who may change what (R11 to R17, R19, R20, R22 to R25, R121, R131, R141, R151): the counter is TICK's, the queue's words are PUSH's, HEAD
is PULL's, COUNT is both's, the bus and the sequencer's registers are the Sequencer's, the stream is the Producer's. PULL and PUSH count
wherever they are made. -/
def Obligations.EachElementHasItsOwnWriters : Prop :=
  ∀ (i : Instr) (s t : State), exec i s = .next t →
    (t.par = s.par ∧ t.script = s.script ∧ t.turn = s.turn ∧ t.inEndless = s.inEndless) ∧
    (t.cnt ≠ s.cnt → i = .tick) ∧
    (t.q ≠ s.q → (∃ d, i = .push d) ∨ ∃ late, i = .produce late) ∧
    (t.head ≠ s.head → i ∈ [.pull, .wait1, .next]) ∧
    (t.count ≠ s.count → (∃ d, i = .push d) ∨ (∃ late, i = .produce late) ∨ i ∈ [.pull, .wait1, .next]) ∧
    (t.halt ≠ s.halt → i ∈ [.haltreq, .sethalt] ∨ ∃ late, i = .produce late) ∧
    (t.faults ≠ s.faults → (∃ v, i = .conv v) ∨ (∃ late, i = .produce late) ∨ i = .setdiv) ∧
    (t.held ≠ s.held → i ∈ [.wait1, .next]) ∧
    (t.nd ≠ s.nd → i ∈ [.rdcnt, .next]) ∧
    (t.tr ≠ s.tr → i ∈ [.rdcnt, .waitdl, .setdiv, .enable, .fselClk, .ctlReset, .ctlEnable, .ctlMode, .disable, .ctlOff, .fselIn]) ∧
    (t.tClkdiv ≠ s.tClkdiv → i = .setdiv) ∧
    (t.tClkctl ≠ s.tClkctl → i ∈ [.enable, .ctlReset, .ctlEnable, .ctlMode, .disable, .ctlOff]) ∧
    (t.tPinfsel ≠ s.tPinfsel → i ∈ [.enable, .fselClk, .disable, .fselIn]) ∧
    (t.cp ≠ s.cp → (∀ d, i ≠ .push d) ∧ (∀ v, i ≠ .conv v) ∧ (∀ late, i ≠ .produce late) ∧ i ∉ [.pull, .haltreq, .tick]) ∧
    (t.inp ≠ s.inp ∨ t.inPos ≠ s.inPos → ∃ late, i = .produce late) ∧
    (t.pcp ≠ s.pcp ∨ t.pend ≠ s.pend → (∃ v, i = .conv v) ∨ ∃ late, i = .produce late)

/-- R102, R92: away from W0 and S0 the Sequencer's step does not read HALT: with the flag set it does the same. -/
def Obligations.HaltIsObservedAtLoopBoundariesOnly : Prop :=
  ∀ s : State, s.cp ≠ .w0 → s.cp ≠ .s0 → ∃ t, takeTurn .sequencer s = .next t ∧
    takeTurn .sequencer { s with halt := true } = .next { t with halt := true }

/-- Outside the stop sequence the Sequencer's step goes to X1 exactly for the four causes of R140; a stop keeps HELD, ND, HEAD, COUNT and Q
(R146), makes no bus write, and records a fault for the fourth cause alone (R143). With HALT_FIRST false the causes are those of log 9; that
a cause is a function of the state is log 28. -/
def Obligations.TheSequencerStopsForTheFourCausesOnly : Prop :=
  ∀ s : State, s.stopping = false → ∃ t, takeTurn .sequencer s = .next t ∧
    (t.cp = .x1 ↔ (stopCause s).isSome = true) ∧
    ((stopCause s).isSome = true → t.held = s.held ∧ t.nd = s.nd ∧ t.head = s.head ∧ t.count = s.count ∧ t.q = s.q ∧
      busWrites t.events = busWrites s.events) ∧
    (stopCause s ≠ some .divisorRange → t.faults = s.faults) ∧
    (stopCause s = some .divisorRange → ∀ f, f ∈ t.faults ↔ f ∈ s.faults ∨ f = .divisorRange s.held)

/-- Every step keeps the trace lawful: each write on the bus is a word of R59 on its register, and only COUNTER and PINFSEL are read
(R33, R56, R61). -/
def Obligations.StepKeepsTheTraceLawful : Prop :=
  ∀ s t : State, s.par.legal = true → s.TraceLawful → step s = .next t → t.TraceLawful

/-- Every step keeps the order of the writes: ENABLE's four once and in their order, then divisor writes alone, then DISABLE's two once and
in their order; no divisor is written without ENABLE before it (R42, R110, R116, R163). -/
def Obligations.WritesStayInTheRequiredOrder : Prop :=
  ∀ s t : State, s.par.legal = true → s.WritesInOrder → step s = .next t → t.WritesInOrder

/-- Every step keeps the stop sequence's invariant; so at DONE the last two writes are W_OFF to CLKCTL and a PINFSEL word with the input
function, and the shadow is disabled (R97, R119, R134). -/
def Obligations.DoneMeansTheOutputWasSwitchedOff : Prop :=
  (∀ s t : State, s.par.legal = true → s.StopInv → step s = .next t → t.StopInv) ∧
  ∀ s : State, s.StopInv → s.cp = .done → s.outputDisabled = true ∧
    ∃ before v, busWrites s.events = before ++ [(.clkctl, wOff s.par), (.pinfsel, v)] ∧ pinField s.par v = fselIn

/-- Every step keeps ND at the deadline of R100, counted from the first counter value read and the number of divisors written. -/
def Obligations.DeadlinesDoNotDrift : Prop :=
  ∀ s t : State, s.ScheduleInv → step s = .next t → t.ScheduleInv

/-- Every step keeps R101: no divisor is written before its deadline was read as reached. -/
def Obligations.NoDivisorIsWrittenEarly : Prop :=
  ∀ s t : State, s.ScheduleInv → s.ReachedInv → s.Timely → step s = .next t → t.ReachedInv ∧ t.Timely

/-- R99: while the sequencer has not stopped, the divisors written, then held, then queued are one list that a step only lengthens, by the
value it pushes; once it stops no more are written. -/
def Obligations.DivisorsReachTheTargetInOrder : Prop :=
  ∀ s t : State, s.Inv → step s = .next t →
    (t.stopping = false → t.pipeline = s.pipeline ∨ ∃ d, t.contents = s.contents ++ [d] ∧ t.pipeline = s.pipeline ++ [divField d]) ∧
    (t.stopping = true → t.written = s.written)

/-- R102: from a state of the invariant with HALT set, under any interleaving (R43), the Sequencer is at DONE once it has had as many turns as
the way from its control point is long, which is at most nine, and at most one more divisor is written. That its further turns change
nothing is log 8. -/
def Obligations.NineStepsFromHaltToDone : Prop :=
  ∀ s : State, s.Inv → s.halt = true → s.par.haltFirst = true → stepsToDone s.cp ≤ 9 ∧
    ∀ (schedule : Nat → Turn) (n : Nat), stepsToDone s.cp ≤ turnsOf schedule .sequencer n →
      ∃ t, runUnder schedule 0 n s = .next t ∧ t.cp = .done ∧ t.written.length ≤ s.written.length + 1

/-- R173: what fairness gives, whatever the other agents do between. A schedule fair to the Sequencer leads from a set HALT to DONE (R102),
with the output switched off if the stop sequence's invariant held; a weakly fair one also brings the Producer to PDONE (R172); and under one
fair to the Counter the deadline the Sequencer waits for at S0 is reached after finitely many steps. -/
def Obligations.FairSchedulesMakeProgress : Prop :=
  (∀ (schedule : Nat → Turn) (s : State), FairTo schedule .sequencer → s.Inv → s.StopInv → s.par.haltFirst = true → s.halt = true →
    ∃ n t, runUnder schedule 0 n s = .next t ∧ t.cp = .done ∧ t.outputDisabled = true) ∧
  (∀ (schedule : Nat → Turn) (s : State), WeaklyFair schedule → s.Inv → s.StopInv → s.par.haltFirst = true → s.halt = true →
    ∃ n t, runUnder schedule 0 n s = .next t ∧ t.cp = .done ∧ t.outputDisabled = true ∧ t.pcp = .pdone) ∧
  ∀ (schedule : Nat → Turn) (s : State), FairTo schedule .counter → s.Inv → s.cp = .s0 →
    ∃ n t, runUnder schedule 0 n s = .next t ∧ t.nd = s.nd ∧ reached s.par.cw t.cnt s.nd = true

/-- No rule reads an address: under other addresses every operation and every step answers the same (R8, R32, R38). -/
def Obligations.AddressesAreNeverRead : Prop :=
  ∀ (s t : State) (counter clkctl clkdiv pinfsel : Option Nat),
    (∀ i, exec i s = .next t → exec i (s.withAddresses counter clkctl clkdiv pinfsel) =
      .next (t.withAddresses counter clkctl clkdiv pinfsel)) ∧
    (step s = .next t → step (s.withAddresses counter clkctl clkdiv pinfsel) = .next (t.withAddresses counter clkctl clkdiv pinfsel))
end

