-- ==== Sys2Proof/Laws/Memory.lean ====
section
/-! SUPPORT. The laws of the queue RAM: a read after a write, the canonical form, and the bounds of the listed indices. -/

namespace Sys2Proof.Machine

@[simp] theorem Memory.read_write_self (m : Memory) (i : Nat) (v : Word) : (m.write i v).read i = some v := by
  induction m with
  | nil => simp [Memory.write, Memory.read]
  | cons a rest ih =>
    obtain ⟨j, w⟩ := a
    simp only [Memory.write]
    split_ifs with h1 h2
    · simp [Memory.read]
    · simp [Memory.read]
    · simp [Memory.read, h2, ih]

theorem Memory.read_write_other (m : Memory) {i k : Nat} (v : Word) (h : k ≠ i) : (m.write i v).read k = m.read k := by
  induction m with
  | nil => simp [Memory.write, Memory.read, h]
  | cons a rest ih =>
    obtain ⟨j, w⟩ := a
    simp only [Memory.write]
    split_ifs with h1 h2
    · simp [Memory.read, h]
    · subst h2; simp [Memory.read, h]
    · simp only [Memory.read, ih]

theorem Memory.mem_write {m : Memory} {i : Nat} {v : Word} {c : Nat × Word} (h : c ∈ m.write i v) : c = (i, v) ∨ c ∈ m := by
  induction m with
  | nil => simpa [Memory.write] using h
  | cons a rest ih =>
    obtain ⟨j, w⟩ := a
    simp only [Memory.write] at h
    split_ifs at h with h1 h2
    · simpa using h
    · rcases List.mem_cons.1 h with h | h
      · exact .inl h
      · exact .inr (List.mem_cons_of_mem _ h)
    · rcases List.mem_cons.1 h with h | h
      · exact .inr (by simp [h])
      · exact (ih h).imp_right (List.mem_cons_of_mem _)

/-- Writing keeps the canonical form. -/
theorem Memory.write_wf {m : Memory} (i : Nat) (v : Word) (h : m.wf) : (m.write i v).wf := by
  induction m with
  | nil => simp [Memory.write, Memory.wf]
  | cons a rest ih =>
    obtain ⟨j, w⟩ := a
    have hr := List.pairwise_cons.1 h
    simp only [Memory.write]
    split_ifs with h1 h2
    · refine List.pairwise_cons.2 ⟨fun b hb => ?_, h⟩
      rcases List.mem_cons.1 hb with rfl | hb
      · exact h1
      · exact Nat.lt_trans h1 (hr.1 b hb)
    · subst h2
      exact List.pairwise_cons.2 ⟨hr.1, hr.2⟩
    · refine List.pairwise_cons.2 ⟨fun b hb => ?_, ih hr.2⟩
      rcases Memory.mem_write hb with rfl | hb
      · exact Nat.lt_of_le_of_ne (Nat.le_of_not_lt h1) (Ne.symm h2)
      · exact hr.1 b hb

/-- The memory at reset is in canonical form. -/
theorem State.reset_queue_wf : Memory.wf State.reset.q := List.Pairwise.nil

end Sys2Proof.Machine
end

