-- ==== Sys2Proof/Laws/State.lean ====
section
/-! SUPPORT. One lemma per field per named update of State: each update changes its own field and no other. -/

namespace Sys2Proof.Machine

@[simp] theorem State.goto_cp (s : State) (c : ControlPoint) : (s.goto c).cp = c := rfl
@[simp] theorem State.goto_par (s : State) (c : ControlPoint) : (s.goto c).par = s.par := rfl
@[simp] theorem State.goto_q (s : State) (c : ControlPoint) : (s.goto c).q = s.q := rfl
@[simp] theorem State.goto_head (s : State) (c : ControlPoint) : (s.goto c).head = s.head := rfl
@[simp] theorem State.goto_count (s : State) (c : ControlPoint) : (s.goto c).count = s.count := rfl
@[simp] theorem State.goto_held (s : State) (c : ControlPoint) : (s.goto c).held = s.held := rfl
@[simp] theorem State.goto_nd (s : State) (c : ControlPoint) : (s.goto c).nd = s.nd := rfl
@[simp] theorem State.goto_halt (s : State) (c : ControlPoint) : (s.goto c).halt = s.halt := rfl
@[simp] theorem State.goto_cnt (s : State) (c : ControlPoint) : (s.goto c).cnt = s.cnt := rfl
@[simp] theorem State.goto_tPinfsel (s : State) (c : ControlPoint) : (s.goto c).tPinfsel = s.tPinfsel := rfl
@[simp] theorem State.goto_tClkctl (s : State) (c : ControlPoint) : (s.goto c).tClkctl = s.tClkctl := rfl
@[simp] theorem State.goto_tClkdiv (s : State) (c : ControlPoint) : (s.goto c).tClkdiv = s.tClkdiv := rfl
@[simp] theorem State.goto_inp (s : State) (c : ControlPoint) : (s.goto c).inp = s.inp := rfl
@[simp] theorem State.goto_inEndless (s : State) (c : ControlPoint) : (s.goto c).inEndless = s.inEndless := rfl
@[simp] theorem State.goto_inPos (s : State) (c : ControlPoint) : (s.goto c).inPos = s.inPos := rfl
@[simp] theorem State.goto_pend (s : State) (c : ControlPoint) : (s.goto c).pend = s.pend := rfl
@[simp] theorem State.goto_pcp (s : State) (c : ControlPoint) : (s.goto c).pcp = s.pcp := rfl
@[simp] theorem State.goto_tr (s : State) (c : ControlPoint) : (s.goto c).tr = s.tr := rfl
@[simp] theorem State.goto_faults (s : State) (c : ControlPoint) : (s.goto c).faults = s.faults := rfl
@[simp] theorem State.goto_script (s : State) (c : ControlPoint) : (s.goto c).script = s.script := rfl
@[simp] theorem State.goto_turn (s : State) (c : ControlPoint) : (s.goto c).turn = s.turn := rfl

@[simp] theorem State.record_tr (s : State) (e : BusEvent) :
    (s.record e).tr = s.tr ++ [{ event := e, stamp := s.cnt }] := rfl
@[simp] theorem State.record_par (s : State) (e : BusEvent) : (s.record e).par = s.par := rfl
@[simp] theorem State.record_q (s : State) (e : BusEvent) : (s.record e).q = s.q := rfl
@[simp] theorem State.record_head (s : State) (e : BusEvent) : (s.record e).head = s.head := rfl
@[simp] theorem State.record_count (s : State) (e : BusEvent) : (s.record e).count = s.count := rfl
@[simp] theorem State.record_cp (s : State) (e : BusEvent) : (s.record e).cp = s.cp := rfl
@[simp] theorem State.record_held (s : State) (e : BusEvent) : (s.record e).held = s.held := rfl
@[simp] theorem State.record_nd (s : State) (e : BusEvent) : (s.record e).nd = s.nd := rfl
@[simp] theorem State.record_halt (s : State) (e : BusEvent) : (s.record e).halt = s.halt := rfl
@[simp] theorem State.record_cnt (s : State) (e : BusEvent) : (s.record e).cnt = s.cnt := rfl
@[simp] theorem State.record_tPinfsel (s : State) (e : BusEvent) : (s.record e).tPinfsel = s.tPinfsel := rfl
@[simp] theorem State.record_tClkctl (s : State) (e : BusEvent) : (s.record e).tClkctl = s.tClkctl := rfl
@[simp] theorem State.record_tClkdiv (s : State) (e : BusEvent) : (s.record e).tClkdiv = s.tClkdiv := rfl
@[simp] theorem State.record_inp (s : State) (e : BusEvent) : (s.record e).inp = s.inp := rfl
@[simp] theorem State.record_inEndless (s : State) (e : BusEvent) : (s.record e).inEndless = s.inEndless := rfl
@[simp] theorem State.record_inPos (s : State) (e : BusEvent) : (s.record e).inPos = s.inPos := rfl
@[simp] theorem State.record_pend (s : State) (e : BusEvent) : (s.record e).pend = s.pend := rfl
@[simp] theorem State.record_pcp (s : State) (e : BusEvent) : (s.record e).pcp = s.pcp := rfl
@[simp] theorem State.record_faults (s : State) (e : BusEvent) : (s.record e).faults = s.faults := rfl
@[simp] theorem State.record_script (s : State) (e : BusEvent) : (s.record e).script = s.script := rfl
@[simp] theorem State.record_turn (s : State) (e : BusEvent) : (s.record e).turn = s.turn := rfl

@[simp] theorem State.raise_faults (s : State) (f : FaultRecord) :
    (s.raise f).faults = if f ∈ s.faults then s.faults else s.faults ++ [f] := rfl
@[simp] theorem State.raise_par (s : State) (f : FaultRecord) : (s.raise f).par = s.par := rfl
@[simp] theorem State.raise_q (s : State) (f : FaultRecord) : (s.raise f).q = s.q := rfl
@[simp] theorem State.raise_head (s : State) (f : FaultRecord) : (s.raise f).head = s.head := rfl
@[simp] theorem State.raise_count (s : State) (f : FaultRecord) : (s.raise f).count = s.count := rfl
@[simp] theorem State.raise_cp (s : State) (f : FaultRecord) : (s.raise f).cp = s.cp := rfl
@[simp] theorem State.raise_held (s : State) (f : FaultRecord) : (s.raise f).held = s.held := rfl
@[simp] theorem State.raise_nd (s : State) (f : FaultRecord) : (s.raise f).nd = s.nd := rfl
@[simp] theorem State.raise_halt (s : State) (f : FaultRecord) : (s.raise f).halt = s.halt := rfl
@[simp] theorem State.raise_cnt (s : State) (f : FaultRecord) : (s.raise f).cnt = s.cnt := rfl
@[simp] theorem State.raise_tPinfsel (s : State) (f : FaultRecord) : (s.raise f).tPinfsel = s.tPinfsel := rfl
@[simp] theorem State.raise_tClkctl (s : State) (f : FaultRecord) : (s.raise f).tClkctl = s.tClkctl := rfl
@[simp] theorem State.raise_tClkdiv (s : State) (f : FaultRecord) : (s.raise f).tClkdiv = s.tClkdiv := rfl
@[simp] theorem State.raise_inp (s : State) (f : FaultRecord) : (s.raise f).inp = s.inp := rfl
@[simp] theorem State.raise_inEndless (s : State) (f : FaultRecord) : (s.raise f).inEndless = s.inEndless := rfl
@[simp] theorem State.raise_inPos (s : State) (f : FaultRecord) : (s.raise f).inPos = s.inPos := rfl
@[simp] theorem State.raise_pend (s : State) (f : FaultRecord) : (s.raise f).pend = s.pend := rfl
@[simp] theorem State.raise_pcp (s : State) (f : FaultRecord) : (s.raise f).pcp = s.pcp := rfl
@[simp] theorem State.raise_tr (s : State) (f : FaultRecord) : (s.raise f).tr = s.tr := rfl
@[simp] theorem State.raise_script (s : State) (f : FaultRecord) : (s.raise f).script = s.script := rfl
@[simp] theorem State.raise_turn (s : State) (f : FaultRecord) : (s.raise f).turn = s.turn := rfl

@[simp] theorem State.enterStop_cp (s : State) : s.enterStop.cp = .x1 := rfl
@[simp] theorem State.enterStop_par (s : State) : s.enterStop.par = s.par := rfl
@[simp] theorem State.enterStop_q (s : State) : s.enterStop.q = s.q := rfl
@[simp] theorem State.enterStop_head (s : State) : s.enterStop.head = s.head := rfl
@[simp] theorem State.enterStop_count (s : State) : s.enterStop.count = s.count := rfl
@[simp] theorem State.enterStop_held (s : State) : s.enterStop.held = s.held := rfl
@[simp] theorem State.enterStop_nd (s : State) : s.enterStop.nd = s.nd := rfl
@[simp] theorem State.enterStop_halt (s : State) : s.enterStop.halt = s.halt := rfl
@[simp] theorem State.enterStop_cnt (s : State) : s.enterStop.cnt = s.cnt := rfl
@[simp] theorem State.enterStop_tPinfsel (s : State) : s.enterStop.tPinfsel = s.tPinfsel := rfl
@[simp] theorem State.enterStop_tClkctl (s : State) : s.enterStop.tClkctl = s.tClkctl := rfl
@[simp] theorem State.enterStop_tClkdiv (s : State) : s.enterStop.tClkdiv = s.tClkdiv := rfl
@[simp] theorem State.enterStop_inp (s : State) : s.enterStop.inp = s.inp := rfl
@[simp] theorem State.enterStop_inEndless (s : State) : s.enterStop.inEndless = s.inEndless := rfl
@[simp] theorem State.enterStop_inPos (s : State) : s.enterStop.inPos = s.inPos := rfl
@[simp] theorem State.enterStop_pend (s : State) : s.enterStop.pend = s.pend := rfl
@[simp] theorem State.enterStop_pcp (s : State) : s.enterStop.pcp = s.pcp := rfl
@[simp] theorem State.enterStop_tr (s : State) : s.enterStop.tr = s.tr := rfl
@[simp] theorem State.enterStop_faults (s : State) : s.enterStop.faults = s.faults := rfl
@[simp] theorem State.enterStop_script (s : State) : s.enterStop.script = s.script := rfl
@[simp] theorem State.enterStop_turn (s : State) : s.enterStop.turn = s.turn := rfl

/-- Raising a fault adds that fault and keeps the others (R23). -/
theorem State.mem_raise_faults (s : State) (f g : FaultRecord) : g ∈ (s.raise f).faults ↔ g ∈ s.faults ∨ g = f := by
  rw [raise_faults]
  split
  · rename_i h
    constructor
    · exact Or.inl
    · rintro (h' | rfl)
      · exact h'
      · exact h
  · simp

/-- No fault is recorded twice (R23: a set). -/
theorem State.raise_faults_nodup (s : State) (f : FaultRecord) (h : s.faults.Nodup) : (s.raise f).faults.Nodup := by
  rw [raise_faults]
  split
  · exact h
  · rename_i hf
    exact List.nodup_append.2 ⟨h, by simp, by rintro a ha b hb rfl; simp at hb; exact hf (hb ▸ ha)⟩

end Sys2Proof.Machine
end

