-- ==== Sys2Proof/Laws/Ops.lean ====
section
/-! SUPPORT. What each shared operation does, once, for proofs to cite instead of unfolding it. -/

namespace Sys2Proof.Machine

@[simp] theorem memRead_counter (s : State) :
    memRead .counter s = .ok (BitVec.ofNat 32 s.cnt, s.record (.rd .counter (BitVec.ofNat 32 s.cnt))) := rfl

@[simp] theorem memRead_pinfsel (s : State) : memRead .pinfsel s = .ok (s.tPinfsel, s.record (.rd .pinfsel s.tPinfsel)) := rfl

@[simp] theorem memWrite_pinfsel (v : Word) (s : State) :
    memWrite .pinfsel v s = .ok { s.record (.wr .pinfsel v) with tPinfsel := v } := rfl

@[simp] theorem memWrite_clkctl (v : Word) (s : State) :
    memWrite .clkctl v s = .ok { s.record (.wr .clkctl v) with tClkctl := taggedWrite s.par s.tClkctl v } := rfl

@[simp] theorem memWrite_clkdiv (v : Word) (s : State) :
    memWrite .clkdiv v s = .ok { s.record (.wr .clkdiv v) with tClkdiv := taggedWrite s.par s.tClkdiv v } := rfl

@[simp] theorem afterBus_ok {α : Type} (x : α) (k : α → Host.Outcome State Fault Refusal) : afterBus (.ok x) k = k x := rfl

@[simp] theorem andThen_next (s : State) (k : State → Host.Outcome State Fault Refusal) : andThen (.next s) k = k s := rfl

/-- A step after another answers a next state only through a state between. -/
theorem andThen_eq_next {o : Host.Outcome State Fault Refusal} {k : State → Host.Outcome State Fault Refusal} {t : State}
    (h : andThen o k = .next t) : ∃ s, o = .next s ∧ k s = .next t := by
  cases o with
  | next s => exact ⟨s, rfl, h⟩
  | fault f => cases h
  | refused r => cases h

/-- A word below `2^24` has no bit at 24 or above. -/
theorem getLsbD_high {x : Word} (h : x.toNat < 2 ^ 24) (i : Nat) : x.getLsbD (24 + i) = false := by
  rw [BitVec.getLsbD]
  exact Nat.testBit_lt_two_pow (Nat.lt_of_lt_of_le h (Nat.pow_le_pow_right (by decide) (by omega)))

/-- The place and the width of the tag where the widths are the source's (R6). -/
theorem tag_place {p : Params} (hw : p.sourceWidths = true) : p.tagLo = 24 ∧ p.tagw = 8 := by
  simp only [Params.sourceWidths, decide_eq_true_eq] at hw
  simp [Params.tagLo, hw]

/-- The width of the target pin's field where the widths are the source's (R6). -/
theorem fselw_eq {p : Params} (hw : p.sourceWidths = true) : p.fselw = 3 := by
  simp only [Params.sourceWidths, decide_eq_true_eq] at hw
  exact hw.2.2.2.2.2.1

/-- Legal parameters have the source's widths (R6). -/
theorem sourceWidths_of_legal {p : Params} (h : p.legal = true) : p.sourceWidths = true := by
  simp only [Params.legal, Bool.and_eq_true] at h
  exact h.1.1.1.1.1.1.1.2

/-- Legal parameters have the target pin's field inside PINFSEL (R54). -/
theorem pinShift_le_of_legal {p : Params} (h : p.legal = true) : p.pinShift + 3 ≤ 32 := by
  have hw := sourceWidths_of_legal h
  simp only [Params.sourceWidths, decide_eq_true_eq] at hw
  simp only [Params.legal, Bool.and_eq_true, decide_eq_true_eq] at h
  omega

/-- A word's tag field is the tag its upper byte was given (R52, R53). -/
theorem tagOf_tagBits_or {p : Params} (hw : p.sourceWidths = true) {x : Word} (h : x.toNat < 2 ^ 24) :
    tagOf p (tagBits p ||| x) = p.tag := by
  obtain ⟨hlo, hn⟩ := tag_place hw
  apply BitVec.eq_of_getLsbD_eq
  intro i hi
  have h1 : 24 + i < 32 := by omega
  have hx := getLsbD_high h i
  rw [BitVec.getLsbD_eq_getElem h1] at hx
  simp [tagOf, tagBits, hlo, hn, hi, h1, hx]

/-- The low 24 bits of a tagged word are those under the tag. -/
theorem setWidth_tagBits_or {p : Params} (hw : p.sourceWidths = true) (x : Word) : (tagBits p ||| x).setWidth 24 = x.setWidth 24 := by
  apply BitVec.eq_of_getLsbD_eq
  intro i hi
  simp [tagBits, (tag_place hw).1, hi]

/-- The write to CLKCTL of one step. -/
theorem controlWrite_eq (w : Word) (c : ControlPoint) (s : State) :
    controlWrite w c s =
      .next { s with
        tr := s.tr ++ [{ event := .wr .clkctl w, stamp := s.cnt }]
        tClkctl := taggedWrite s.par s.tClkctl w
        cp := c } := rfl

/-- The read-modify-write of PINFSEL of one step: two events, one new word. -/
theorem pinWrite_eq (f : PinFunction) (c : ControlPoint) (s : State) :
    pinWrite f c s =
      .next { s with
        tr := s.tr ++ [{ event := .rd .pinfsel s.tPinfsel, stamp := s.cnt }] ++
          [{ event := .wr .pinfsel (fselWord s.par s.tPinfsel f), stamp := s.cnt }]
        tPinfsel := fselWord s.par s.tPinfsel f
        cp := c } := rfl

/-- What reading a sample finds: whole samples among the listed bytes, free bytes after them, the end, or part of a sample (R64, R83). -/
theorem readSample_whole {s : State} (h : s.par.sampleBytes ≤ s.inp.length) :
    readSample s = .sample (sampleOf s.par (s.inp.take s.par.sampleBytes)) { s with inp := s.inp.drop s.par.sampleBytes } := by
  simp [readSample, h]

theorem readSample_endless {s : State} (h : s.inp.length < s.par.sampleBytes) (he : s.inEndless = true) :
    readSample s = .sample (sampleOf s.par (s.inp ++ freeBytes s.inPos (s.par.sampleBytes - s.inp.length)))
      { s with inp := [], inPos := s.inPos + (s.par.sampleBytes - s.inp.length) } := by
  simp [readSample, Nat.not_le.2 h, he]

theorem readSample_end {s : State} (hw : 0 < s.par.sampleBytes) (h : s.inp = []) (he : s.inEndless = false) :
    readSample s = .endOfStream := by
  simp [readSample, h, he, Nat.pos_iff_ne_zero.1 hw]

theorem readSample_part {s : State} (h : s.inp.length < s.par.sampleBytes) (hn : s.inp ≠ []) (he : s.inEndless = false) :
    readSample s = .partOfSample := by
  simp [readSample, Nat.not_le.2 h, he, hn]

theorem push_of_lt {s : State} (d : Word) (h : s.count < s.par.qmax) :
    push d s = (true, { s with q := Memory.write s.q s.pushIndex d, count := s.count + 1 }) := by simp [push, h]

theorem push_of_full {s : State} (d : Word) (h : ¬ s.count < s.par.qmax) : push d s = (false, s) := by simp [push, h]

theorem pull_of_pos {s : State} (h : 0 < s.count) :
    pull s = (some (s.readQ s.head), { s with head := (s.head + 1) % s.par.qmax, count := s.count - 1 }) := by simp [pull, h]

theorem pull_of_empty {s : State} (h : s.count = 0) : pull s = (none, s) := by simp [pull, h]

end Sys2Proof.Machine
end

