-- ==== Sys2Proof/Laws/Operands.lean ====
section
/-! SUPPORT. What the assembled words hold: the target field and the other pins' bits of a PINFSEL word, the fields of a W-DIV word. -/

namespace Sys2Proof.Machine

/-- The mask has a one exactly at the bits of the target field (R54). -/
theorem getLsbD_pinMask (p : Params) (i : Nat) :
    p.pinMask.getLsbD i = (decide (i < 32) && decide (p.pinShift ≤ i ∧ i < p.pinShift + p.fselw)) := by
  simp only [Params.pinMask, BitVec.getLsbD_shiftLeft, BitVec.getLsbD_ofNat, Nat.testBit_two_pow_sub_one]
  apply Bool.eq_iff_iff.2
  simp only [Bool.and_eq_true, Bool.not_eq_true', decide_eq_true_eq, decide_eq_false_iff_not]
  omega

/-- The word written to PINFSEL keeps every bit outside the target field (R54). -/
theorem getLsbD_fselWord_other (p : Params) (old : Word) (f : PinFunction) {i : Nat} (hw : p.fselw = 3) (h : i < p.pinShift ∨ p.pinShift + 3 ≤ i) :
    (fselWord p old f).getLsbD i = old.getLsbD i := by
  rcases Nat.lt_or_ge i 32 with hi | hi
  · have hm : p.pinMask.getLsbD i = false := by rw [getLsbD_pinMask, hw]; simp; omega
    have hf : (f.setWidth 32 <<< p.pinShift).getLsbD i = false := by
      rw [BitVec.getLsbD_shiftLeft]
      rcases h with h | h
      · simp [h]
      · have : f.getLsbD (i - p.pinShift) = false := BitVec.getLsbD_of_ge _ _ (by omega)
        simp [this]
    simp only [fselWord, BitVec.getLsbD_or, BitVec.getLsbD_and, BitVec.getLsbD_not, hi, hm, hf, decide_true, Bool.not_false,
      Bool.and_true, Bool.or_false]
  · rw [BitVec.getLsbD_of_ge _ _ hi, BitVec.getLsbD_of_ge _ _ hi]

/-- The word written to PINFSEL has the function in the target field (R54). -/
theorem pinField_fselWord (p : Params) (old : Word) (f : PinFunction) (hw : p.fselw = 3) (h : p.pinShift + 3 ≤ 32) :
    pinField p (fselWord p old f) = f := by
  apply BitVec.eq_of_getLsbD_eq
  intro i hi
  have hm : p.pinMask.getLsbD (p.pinShift + i) = true := by rw [getLsbD_pinMask, hw]; simp; omega
  have h1 : p.pinShift + i < 32 := by omega
  simp [pinField, fselWord, hw, hi, hm, h1]

/-- The fields of a W-DIV word (R53). -/
theorem tagOf_divWord {p : Params} (hw : p.sourceWidths = true) (d : Word) : tagOf p (divWord p d) = p.tag :=
  tagOf_tagBits_or hw (by simp [divField]; omega)

theorem divField_divWord {p : Params} (hw : p.sourceWidths = true) (d : Word) : divField (divWord p d) = divField d := by
  rw [divField, divWord, setWidth_tagBits_or hw]
  simp [divField]

/-- The shadow of CLKDIV takes the divisor of a W-DIV word (R34, R53). -/
theorem taggedWrite_divWord {p : Params} (hw : p.sourceWidths = true) (old : Word24) (d : Word) :
    taggedWrite p old (divWord p d) = divField d := by
  rw [taggedWrite, if_pos (tagOf_divWord hw d)]
  exact divField_divWord hw d

end Sys2Proof.Machine
end

