-- ==== Sys2Proof/Laws/Exec.lean ====
section
/-! SUPPORT. What each meaning can answer, once, as whole states: proofs about steps cite these and unfold no meaning. -/

namespace Sys2Proof.Machine

/-- The event a read of COUNTER appends. -/
def counterRead (s : State) : BusEvent := .rd .counter (BitVec.ofNat 32 s.cnt)

/-! ## The register writer -/

theorem pinWrite_next (f : PinFunction) (c : ControlPoint) (s : State) :
    pinWrite f c s = .next { s with
      tr := s.tr ++ s.stamped [.rd .pinfsel s.tPinfsel, .wr .pinfsel (fselWord s.par s.tPinfsel f)]
      tPinfsel := fselWord s.par s.tPinfsel f
      cp := c } := by
  rw [pinWrite_eq]; simp [State.stamped]

theorem controlWrite_next (w : Word) (c : ControlPoint) (s : State) :
    controlWrite w c s = .next { s with
      tr := s.tr ++ s.stamped [.wr .clkctl w], tClkctl := taggedWrite s.par s.tClkctl w, cp := c } := rfl

theorem exec_fselClk (s : State) : exec .fselClk s = pinWrite s.par.fselClk .e2 s := rfl
theorem exec_fselIn (s : State) : exec .fselIn s = pinWrite fselIn .x3 s := rfl
theorem exec_ctlReset (s : State) : exec .ctlReset s = controlWrite (wReset s.par) .e3 s := rfl
theorem exec_ctlEnable (s : State) : exec .ctlEnable s = controlWrite (wEnable s.par) .e4 s := rfl
theorem exec_ctlMode (s : State) : exec .ctlMode s = controlWrite (wMode s.par) .e5 s := rfl
theorem exec_ctlOff (s : State) : exec .ctlOff s = controlWrite (wOff s.par) .x2 s := rfl

/-- A composite is its operations one after another. -/
theorem exec_enable (s : State) :
    exec .enable s = andThen (exec .fselClk s) fun a => andThen (exec .ctlReset a) fun b => andThen (exec .ctlEnable b) fun c =>
      exec .ctlMode c := by
  simp only [exec, execEnable, execFselClk, execCtlReset, execCtlEnable, execCtlMode, pinWrite_next, controlWrite_next, andThen_next]

theorem exec_disable (s : State) : exec .disable s = andThen (exec .ctlOff s) fun a => exec .fselIn a := by
  simp only [exec, execDisable, execCtlOff, execFselIn, controlWrite_next, andThen_next]

/-! ## The FIFO and the producer -/

theorem exec_push (d : Word) (s : State) : exec (.push d) s = .next (push d s).2 := rfl
theorem exec_pull (s : State) : exec .pull s = .next (pull s).2 := rfl
theorem exec_conv (v : Int) (s : State) : exec (.conv v) s = .next (takeSample v s) := rfl

theorem push_frame (d : Word) (s : State) : ∃ q count, (push d s).2 = { s with q := q, count := count } := by
  unfold push
  split
  · exact ⟨_, _, rfl⟩
  · exact ⟨s.q, s.count, rfl⟩

theorem pull_frame (s : State) : ∃ head count, (pull s).2 = { s with head := head, count := count } := by
  unfold pull
  split
  · exact ⟨_, _, rfl⟩
  · exact ⟨s.head, s.count, rfl⟩

theorem takeSample_cases (v : Int) (s : State) :
    (∃ d, convert s.par v = some d ∧ takeSample v s = { s with pend := some d, pcp := .p1 }) ∨
      (convert s.par v = none ∧ takeSample v s = { s.raise (.convRange v) with pcp := .pdone }) := by
  unfold takeSample
  split
  · exact .inl ⟨_, by assumption, rfl⟩
  · exact .inr ⟨by assumption, rfl⟩

theorem readSample_sample {s r : State} {v : Int} (h : readSample s = .sample v r) :
    ∃ inp inPos, r = { s with inp := inp, inPos := inPos } := by
  unfold readSample at h
  split at h
  · cases h; exact ⟨_, s.inPos, rfl⟩
  · split at h
    · cases h; exact ⟨_, _, rfl⟩
    · split at h <;> cases h

theorem readSample_partOfSample {s : State} (h : readSample s = .partOfSample) :
    s.inp ≠ [] ∧ s.inp.length < s.par.sampleBytes ∧ s.inEndless = false := by
  unfold readSample at h
  split at h
  · cases h
  · rename_i hm
    split at h
    · cases h
    · rename_i he
      split at h
      · cases h
      · rename_i hn
        exact ⟨hn, by omega, by simpa using he⟩

/-- What a step of the Producer can answer. -/
theorem exec_produce_cases {late : Bool} {s t : State} (h : exec (.produce late) s = .next t) :
    (s.pcp = .pdone ∧ t = s) ∨
    (s.pcp ≠ .pdone ∧ late = true ∧ s.par.timeoutS.isSome = true ∧ t = { s with halt := true, pend := none, pcp := .pdone }) ∨
    (s.pcp = .p0 ∧ t = { s with pcp := .pdone }) ∨
    (s.pcp = .p0 ∧ ¬ (late = true ∧ s.par.timeoutS.isSome = true) ∧ s.halt = false ∧
      (s.inp ≠ [] ∧ s.inp.length < s.par.sampleBytes) ∧ s.inEndless = false ∧
      t = { s.raise .shortRead with halt := true, pcp := .pdone }) ∨
    (s.pcp = .p0 ∧ s.halt = false ∧ ∃ v inp inPos, t = takeSample v { s with inp := inp, inPos := inPos }) ∨
    (s.pcp = .p1 ∧ ∃ d, s.pend = some d ∧ s.count < s.par.qmax ∧ t = { (push d s).2 with pend := none, pcp := .p0 }) ∨
    (s.pcp = .p1 ∧ ¬ s.count < s.par.qmax ∧ s.halt = true ∧ t = { s with pend := none, pcp := .pdone }) ∨
    (s.pcp = .p1 ∧ ¬ s.count < s.par.qmax ∧ s.halt = false ∧ t = s) := by
  simp only [exec, execProduce] at h
  split at h
  · rename_i hp
    cases h
    exact .inl ⟨hp, rfl⟩
  · rename_i hp
    split at h
    · rename_i hl
      cases h
      simp only [Bool.and_eq_true] at hl
      exact .inr (.inl ⟨by simp [hp], hl.1, hl.2, rfl⟩)
    · rename_i hl
      simp only [Bool.and_eq_true] at hl
      cases h
      unfold produceRead
      split
      · exact .inr (.inr (.inl ⟨hp, rfl⟩))
      · rename_i hh
        have hh : s.halt = false := by simpa using hh
        split
        · exact .inr (.inr (.inl ⟨hp, rfl⟩))
        · rename_i hr
          obtain ⟨hn, hb, he⟩ := readSample_partOfSample hr
          exact .inr (.inr (.inr (.inl ⟨hp, hl, hh, ⟨hn, hb⟩, he, rfl⟩)))
        · rename_i v r hr
          obtain ⟨a, n, rfl⟩ := readSample_sample hr
          exact .inr (.inr (.inr (.inr (.inl ⟨hp, hh, v, a, n, rfl⟩))))
  · rename_i hp
    split at h
    · rename_i hl
      cases h
      simp only [Bool.and_eq_true] at hl
      exact .inr (.inl ⟨by simp [hp], hl.1, hl.2, rfl⟩)
    · unfold produceOffer at h
      split at h
      · cases h
      · rename_i d hd
        by_cases hc : s.count < s.par.qmax
        · rw [push_of_lt d hc] at h
          cases h
          exact .inr (.inr (.inr (.inr (.inr (.inl ⟨hp, d, hd, hc, by rw [push_of_lt d hc]⟩)))))
        · rw [push_of_full d hc] at h
          change Host.Outcome.next (if s.halt = true then _ else _) = _ at h
          by_cases hh : s.halt = true
          · rw [if_pos hh, Host.Outcome.next.injEq] at h
            exact .inr (.inr (.inr (.inr (.inr (.inr (.inl ⟨hp, hc, hh, h.symm⟩))))))
          · rw [if_neg hh, Host.Outcome.next.injEq] at h
            refine .inr (.inr (.inr (.inr (.inr (.inr (.inr ⟨hp, hc, by simpa using hh, ?_⟩))))))
            rw [← h, ← hp]

/-! ## The sequencer -/

theorem exec_rdcnt (s : State) :
    exec .rdcnt s = .next { s with
      nd := countOf s.par (BitVec.ofNat 32 s.cnt), tr := s.tr ++ s.stamped [counterRead s], cp := .s0 } := rfl

theorem exec_sethalt (s : State) : exec .sethalt s = .next { s with halt := true, cp := .done } := rfl

theorem exec_wait1_cases {s t : State} (h : exec .wait1 s = .next t) :
    (s.halt = true ∧ (s.par.haltFirst = true ∨ s.count = 0) ∧ t = { s with cp := .x1 }) ∨
    (0 < s.count ∧ (s.par.haltFirst && s.halt) = false ∧
      t = { s with held := s.readQ s.head, head := (s.head + 1) % s.par.qmax, count := s.count - 1, cp := .e1 }) ∨
    (s.halt = false ∧ s.count = 0 ∧ t = { s with cp := .w0 }) := by
  simp only [exec, execWait1] at h
  split at h
  · rename_i hh
    simp only [Bool.and_eq_true] at hh
    cases h
    exact .inl ⟨hh.2, .inl hh.1, rfl⟩
  · rename_i hh
    by_cases hc : 0 < s.count
    · rw [pull_of_pos hc] at h
      cases h
      exact .inr (.inl ⟨hc, by simpa using hh, rfl⟩)
    · have hc : s.count = 0 := by omega
      rw [pull_of_empty hc] at h
      cases hx : s.halt <;> simp only [hx, if_true, Bool.false_eq_true, if_false, Host.Outcome.next.injEq] at h <;> subst h
      · exact .inr (.inr ⟨rfl, hc, by rw [← hx]; rfl⟩)
      · exact .inl ⟨rfl, .inr hc, by rw [← hx]; rfl⟩

theorem exec_waitdl_cases {s t : State} (h : exec .waitdl s = .next t) :
    (s.halt = true ∧ s.par.haltFirst = true ∧ t = { s with cp := .x1 }) ∨
    ((s.par.haltFirst && s.halt) = false ∧ reached s.par.cw (countOf s.par (BitVec.ofNat 32 s.cnt)) s.nd = true ∧
      t = { s with tr := s.tr ++ s.stamped [counterRead s], cp := .s1 }) ∨
    ((s.par.haltFirst && s.halt) = false ∧ reached s.par.cw (countOf s.par (BitVec.ofNat 32 s.cnt)) s.nd = false ∧
      t = { s with tr := s.tr ++ s.stamped [counterRead s], cp := if s.halt then .x1 else .s0 }) := by
  simp only [exec, execWaitdl] at h
  split at h
  · rename_i hh
    simp only [Bool.and_eq_true] at hh
    cases h
    exact .inl ⟨hh.2, hh.1, rfl⟩
  · rename_i hh
    simp only [memRead_counter, afterBus_ok] at h
    split at h
    · rename_i hr
      cases h
      exact .inr (.inl ⟨by simpa using hh, hr, rfl⟩)
    · rename_i hr
      refine .inr (.inr ⟨by simpa using hh, by simpa using hr, ?_⟩)
      cases h
      cases hx : s.halt <;> simp [hx, State.record, State.goto, State.enterStop, State.stamped, counterRead]

theorem exec_setdiv_cases {s t : State} (h : exec .setdiv s = .next t) :
    (divInRange s.par s.held = true ∧
      t = { s with
        tr := s.tr ++ s.stamped [.wr .clkdiv (divWord s.par s.held)]
        tClkdiv := taggedWrite s.par s.tClkdiv (divWord s.par s.held)
        cp := .s2 }) ∨
    (divInRange s.par s.held = false ∧ t = (s.raise (.divisorRange s.held)).enterStop) := by
  simp only [exec, execSetdiv] at h
  split at h
  · rename_i hr
    refine .inl ⟨hr, ?_⟩
    simp only [memWrite_clkdiv, afterBus_ok] at h
    cases h
    simp [State.goto, State.record, State.stamped]
  · rename_i hr
    cases h
    exact .inr ⟨by simpa using hr, rfl⟩

theorem exec_next_cases {s t : State} (h : exec .next s = .next t) :
    (0 < s.count ∧ t = { s with
      held := s.readQ s.head
      head := (s.head + 1) % s.par.qmax
      count := s.count - 1
      nd := advance s.par s.nd
      cp := .s0 }) ∨
    (s.count = 0 ∧ t = { s with cp := .x1 }) := by
  simp only [exec, execNext] at h
  by_cases hc : 0 < s.count
  · rw [pull_of_pos hc] at h
    cases h
    exact .inl ⟨hc, rfl⟩
  · have hc : s.count = 0 := by omega
    rw [pull_of_empty hc] at h
    cases h
    exact .inr ⟨hc, rfl⟩

/-! ## The trace -/

theorem State.events_of_tr_append {s t : State} {es : List BusEvent} (h : t.tr = s.tr ++ s.stamped es) : t.events = s.events ++ es := by
  simp [State.events, State.stamped, Function.comp_def, h]

theorem State.events_of_tr_eq {s t : State} (h : t.tr = s.tr) : t.events = s.events := by rw [State.events, h, State.events]

theorem divisorWords_append (a b : List BusEvent) : divisorWords (a ++ b) = divisorWords a ++ divisorWords b := List.filterMap_append
theorem counterReads_append (a b : List BusEvent) : counterReads (a ++ b) = counterReads a ++ counterReads b := List.filterMap_append
theorem busWrites_append (a b : List BusEvent) : busWrites (a ++ b) = busWrites a ++ busWrites b := List.filterMap_append

end Sys2Proof.Machine
end

