-- ==== Sys2Proof/Laws/PerInstr.lean ====
section
/-! SUPPORT. Per operation: what selects it selects it alone. One lemma per constructor of Instr. -/

namespace Sys2Proof.Laws.Selection

/-- The selector the encoder gives a well-formed operation decodes to it, and a control point that decodes to it is the encoder's
(spec/30_encoding.md R50). -/
def Statement (i : Instr) : Prop :=
  (∀ p, i.wf p = true → ∀ x, encodeSelector i = some x → decodeSelector p x = .ok i) ∧
    ∀ c, decodePoint c = .ok i → encodeSelector i = some (.seqAt c)

/-- The second half for an operation that no control point selects, and for one that one does. -/
theorem point_unique (i : Instr) (c : ControlPoint) (h : decodePoint c = .ok i) : encodeSelector i = some (.seqAt c) := by
  cases c <;> simp [decodePoint] at h <;> subst h <;> rfl

theorem push (d : Word) : Statement (.push d) := ⟨fun _ _ x hx => by cases hx; rfl, point_unique _⟩

theorem pull : Statement .pull := ⟨fun _ _ x hx => by simp [encodeSelector] at hx, point_unique _⟩

theorem conv (v : Int) : Statement (.conv v) :=
  ⟨fun _ hw x hx => by cases hx; simp only [decodeSelector, hw, if_true], point_unique _⟩

theorem produce (late : Bool) : Statement (.produce late) := ⟨fun _ _ x hx => by cases hx; rfl, point_unique _⟩

theorem wait1 : Statement .wait1 := ⟨fun _ _ x hx => by cases hx; rfl, point_unique _⟩

theorem rdcnt : Statement .rdcnt := ⟨fun _ _ x hx => by cases hx; rfl, point_unique _⟩

theorem waitdl : Statement .waitdl := ⟨fun _ _ x hx => by cases hx; rfl, point_unique _⟩

theorem setdiv : Statement .setdiv := ⟨fun _ _ x hx => by cases hx; rfl, point_unique _⟩

theorem next : Statement .next := ⟨fun _ _ x hx => by cases hx; rfl, point_unique _⟩

theorem sethalt : Statement .sethalt := ⟨fun _ _ x hx => by cases hx; rfl, point_unique _⟩

theorem enable : Statement .enable := ⟨fun _ _ x hx => by simp [encodeSelector] at hx, point_unique _⟩

theorem fselClk : Statement .fselClk := ⟨fun _ _ x hx => by cases hx; rfl, point_unique _⟩

theorem ctlReset : Statement .ctlReset := ⟨fun _ _ x hx => by cases hx; rfl, point_unique _⟩

theorem ctlEnable : Statement .ctlEnable := ⟨fun _ _ x hx => by cases hx; rfl, point_unique _⟩

theorem ctlMode : Statement .ctlMode := ⟨fun _ _ x hx => by cases hx; rfl, point_unique _⟩

theorem disable : Statement .disable := ⟨fun _ _ x hx => by simp [encodeSelector] at hx, point_unique _⟩

theorem ctlOff : Statement .ctlOff := ⟨fun _ _ x hx => by cases hx; rfl, point_unique _⟩

theorem fselIn : Statement .fselIn := ⟨fun _ _ x hx => by cases hx; rfl, point_unique _⟩

theorem haltreq : Statement .haltreq := ⟨fun _ _ x hx => by cases hx; rfl, point_unique _⟩

theorem tick : Statement .tick := ⟨fun _ _ x hx => by cases hx; rfl, point_unique _⟩

end Sys2Proof.Laws.Selection
end

