-- ==== Sys2Proof/Laws/Step.lean ====
section
/-! SUPPORT. What a step can do, once: it takes a line off the script or a turn off the schedule, and performs one operation or none. -/

namespace Sys2Proof.Machine

/-- Fetching changes the script and the schedule's counter alone. -/
theorem fetch_frame (s : State) : ∃ script turn, (fetch s).2 = { s with script := script, turn := turn } := by
  unfold fetch
  split
  · exact ⟨s.script, s.turn + 1, rfl⟩
  · exact ⟨_, s.turn, rfl⟩

/-- Performing a selection that answers a next state changed nothing, or ran the operation selected. -/
theorem perform_cases {sel : Option Selector} {s t : State} (h : perform sel s = .next t) :
    t = s ∨ ∃ x i, sel = some x ∧ decodeSelector s.par x = .ok i ∧ exec i s = .next t := by
  unfold perform at h
  split at h
  · cases h; exact .inl rfl
  · split at h
    · cases h; exact .inl rfl
    · rename_i x _ i hi
      exact .inr ⟨x, i, rfl, hi, h⟩

/-- What a line of the script or a turn can select: the Sequencer at its own control point, the Producer at its own, a sample only while
the Producer is at P0. -/
theorem fetch_selects {s : State} {x : Selector} (h : (fetch s).1 = some x) :
    x = .seqAt s.cp ∨ (∃ d, x = .pushPort true d) ∨ x = .haltLine true ∨ x = .microsecond ∨ (∃ late, x = .prodAt s.pcp late) ∨
      (s.pcp = .p0 ∧ ∃ v, x = .sample v) := by
  cases hs : s.script with
  | nil =>
    simp only [fetch, hs, Option.some.injEq] at h
    subst h
    cases Config.schedule s.turn <;> simp [turnSelector]
  | cons line rest =>
    simp only [fetch, hs] at h
    cases line with
    | sample v =>
      cases hp : s.pcp <;> simp only [lineSelector, hp, Option.some.injEq, reduceCtorEq] at h <;> subst h <;> simp
    | offer =>
      simp only [lineSelector] at h
      split at h
      · rename_i hp; simp only [Option.some.injEq] at h; subst h; simp [hp]
      · cases h
    | tick n => cases n <;> simp [lineSelector] at h; simp [← h]
    | seqStar =>
      simp only [lineSelector] at h
      split at h
      · cases h
      · simp only [Option.some.injEq] at h; exact .inl h.symm
    | push d => simp only [lineSelector, Option.some.injEq] at h; simp [← h]
    | halt => simp only [lineSelector, Option.some.injEq] at h; simp [← h]
    | seq => simp only [lineSelector, Option.some.injEq] at h; simp [← h]
    | produce => simp only [lineSelector, Option.some.injEq] at h; simp [← h]
    | timeout => simp only [lineSelector, Option.some.injEq] at h; simp [← h]

/-- A step that answers a next state: the stimulus moved on, and then nothing, or the one operation of the agent that moved. -/
theorem step_cases {s t : State} (h : step s = .next t) :
    ∃ u, (∃ script turn, u = { s with script := script, turn := turn }) ∧
      (t = u ∨ (∃ i, decodePoint u.cp = .ok i ∧ exec i u = .next t) ∨ (∃ d, exec (.push d) u = .next t) ∨
        exec .haltreq u = .next t ∨ exec .tick u = .next t ∨ (∃ late, exec (.produce late) u = .next t) ∨
        (u.pcp = .p0 ∧ ∃ v, (Instr.conv v).wf u.par = true ∧ exec (.conv v) u = .next t)) := by
  obtain ⟨sc, tn, hu⟩ := fetch_frame s
  refine ⟨(fetch s).2, ⟨sc, tn, hu⟩, ?_⟩
  have hcp : (fetch s).2.cp = s.cp := by rw [hu]
  have hpcp : (fetch s).2.pcp = s.pcp := by rw [hu]
  rcases perform_cases h with h | ⟨x, i, hx, hd, h⟩
  · exact .inl h
  · right
    rcases fetch_selects hx with rfl | ⟨d, rfl⟩ | rfl | rfl | ⟨late, rfl⟩ | ⟨hp, v, rfl⟩
    · exact .inl ⟨i, by rw [hcp]; exact hd, h⟩
    · cases hd; exact .inr (.inl ⟨d, h⟩)
    · cases hd; exact .inr (.inr (.inl h))
    · cases hd; exact .inr (.inr (.inr (.inl h)))
    · refine .inr (.inr (.inr (.inr (.inl ⟨late, ?_⟩))))
      cases hc : s.pcp <;> simp only [hc, decodeSelector, Except.ok.injEq, reduceCtorEq] at hd <;> subst hd <;> exact h
    · simp only [decodeSelector] at hd
      split at hd
      · rename_i hw
        cases hd
        exact .inr (.inr (.inr (.inr (.inr ⟨by rw [hpcp]; exact hp, v, hw, h⟩))))
      · cases hd

/-- The Sequencer's turn is the operation of its control point, and nothing at DONE. -/
theorem takeTurn_sequencer (s : State) :
    takeTurn .sequencer s = match decodePoint s.cp with | .ok i => exec i s | .error _ => .next s := by
  simp only [takeTurn, perform, turnSelector, decodeSelector]
  cases s.cp <;> rfl

/-- A run under a schedule, one turn at a time. -/
theorem runUnder_succ (schedule : Nat → Turn) (k n : Nat) (s : State) :
    runUnder schedule k (n + 1) s = andThen (takeTurn (schedule k) s) (runUnder schedule (k + 1) n) := rfl

/-- The operations a selector can select: PULL, ENABLE and DISABLE are none of them (R50). -/
theorem decodeSelector_ne {p : Params} {x : Selector} {i : Instr} (h : decodeSelector p x = .ok i) :
    i ≠ .pull ∧ i ≠ .enable ∧ i ≠ .disable := by
  cases x with
  | pushPort v d => cases v <;> simp [decodeSelector] at h; subst h; simp
  | haltLine r => cases r <;> simp [decodeSelector] at h; subst h; simp
  | seqAt c => cases c <;> simp [decodeSelector, decodePoint] at h <;> subst h <;> simp
  | prodAt c l => cases c <;> simp [decodeSelector] at h <;> subst h <;> simp
  | sample v => simp only [decodeSelector] at h; split at h <;> simp at h; subst h; simp
  | microsecond => simp [decodeSelector] at h; subst h; simp

end Sys2Proof.Machine
end

