-- ==== Sys2Proof/Tests/Slice0.lean ====
section
/-! SUPPORT. Tests of the model against the worked examples and vectors of spec/95_test_vectors.md (V, P) and of the rules, one step each;
ill-formed terms the checks refuse; and for each statement with hypotheses a witness that meets them. -/

namespace Sys2Proof.Tests

open Sys2Proof Sys2Proof.Machine

/-! ## Helpers -/

/-- The next state, if there is one. -/
def nextOf : Host.Outcome State Fault Refusal → Option State
  | .next s => some s
  | .fault _ => none
  | .refused _ => none

/-- What a test looks at in the next state of an operation. -/
def after {α : Type} (i : Instr) (s : State) (look : State → α) : Option α := (nextOf (exec i s)).map look

/-- The reset state at a control point, with the pin register of V4.5. -/
def pointed (c : ControlPoint) : State := { State.reset with cp := c, tPinfsel := 0x12345678#32 }

/-- The reset state with one entry in the queue. -/
def loaded (c : ControlPoint) (d : Word) : State := { pointed c with q := [(0, d)], count := 1 }

/-- The queue of V1.1 after step 4: QMAX = 4 and full. -/
def full : State :=
  { State.reset with
    par := { Params.default with qmax := 4 }
    q := [(0, 0xA#32), (1, 0xB#32), (2, 0xC#32), (3, 0xD#32)]
    count := 4 }

/-- The queue of V1.3. -/
def wrapped : State := { State.reset with q := [(0, 2#32), (19999, 1#32)], head := 19999, count := 2 }

/-- A divisor waiting at P1. -/
def waiting (s : State) : State := { s with pend := some 0x4F9A#32, pcp := .p1 }

/-- The parameters with the flag tested late. -/
def late : Params := { Params.default with haltFirst := false }

/-- The parameters with a timeout configured. -/
def timed : Params := { Params.default with timeoutS := some 1 }

/-- The parameters of V2.12: the lowest frequency is 0. -/
def zeroCarrier : Params := { Params.default with freqMhz := .fin false 5404319552844595 (-56) }

/-- Bus events with one stamp. -/
def stampedAt (c : Nat) (es : List BusEvent) : List TraceEntry := es.map fun e => { event := e, stamp := c }

/-- P1 in its spin: one divisor written at its deadline 0x3EC, the second held for 0x41E. -/
def streaming (c : ControlPoint) : State :=
  { State.reset with
    cp := c
    held := 0x4FA9#32
    nd := 0x41E
    cnt := 0x41E
    q := [(0, 0x4F9A#32), (1, 0x4FA9#32)]
    head := 2
    tr := stampedAt 0x3EC [.rd .counter 0x3EC#32, .wr .clkdiv 0x5A004F9A#32] ++ stampedAt 0x41E [.rd .counter 0x41E#32] }

/-! ## Well-formedness: each check refuses something -/

theorem test_sample_range :
    (Instr.conv 32767).wf Params.default = true ∧ (Instr.conv (-32768)).wf Params.default = true ∧
    (Instr.conv 32768).wf Params.default = false ∧ (Instr.conv (-32769)).wf Params.default = false := by decide

theorem test_others_leave_the_target_field_empty :
    (BusOp.fselClk 0xFFFF8FFF#32).wf Params.default = true ∧ (BusOp.fselClk 0x00001000#32).wf Params.default = false ∧
    (BusOp.fselIn 0x00004000#32).wf Params.default = false := by decide

theorem test_default_parameters_are_legal : Params.default.legal = true := by decide

theorem test_frequency_and_deviation_must_be_positive :
    { Params.default with freqMhz := .fin false 0 0 }.legal = false ∧ { Params.default with freqMhz := .fin true 1 0 }.legal = false ∧
    { Params.default with devKhz := .fin false 0 0 }.legal = false ∧ { Params.default with devKhz := .nan }.legal = false ∧
    { Params.default with clockSourceMhz := .inf false }.legal = false := by decide

theorem test_source_widths_are_fixed :
    { Params.default with sampleW := 8 }.legal = false ∧ { Params.default with sampleBytes := 1 }.legal = false ∧
    { Params.default with dw := 31 }.legal = false ∧ { Params.default with divw := 25 }.legal = false ∧
    { Params.default with tagw := 7 }.legal = false ∧ { Params.default with fselw := 2 }.legal = false ∧
    { Params.default with tick := 2 }.legal = false ∧ { Params.default with sampleRate := 0 }.legal = false := by decide

/-- R36, and log 16; the addresses of spec/93_implementation_defined.md G7 are legal. -/
theorem test_addresses :
    { Params.default with addrCounter := some 0x7E003004, addrClkctl := some 0x7E101070, addrClkdiv := some 0x7E101074,
                          addrPinfsel := some 0x7E200000 }.legal = true ∧
    { Params.default with addrClkctl := some 0x7E101072 }.legal = false ∧
    { Params.default with addrClkctl := some 0x7E101070, addrClkdiv := some 0x7E101070 }.legal = false := by decide

/-- R6: QMAX and PERIOD of the default rate. -/
theorem test_default_rate : Params.default.atRate 20000 = Params.default := by decide

theorem test_widths_must_fit :
    { Params.default with cw := 1 }.legal = false ∧ { Params.default with cw := 33 }.legal = false ∧
    { Params.default with period := 0 }.legal = false ∧ { Params.default with qmax := 0 }.legal = false ∧
    { Params.default with idxw := 14 }.legal = false ∧ { Params.default with pinShift := 30 }.legal = false := by decide

theorem test_control_fields_must_not_overlap :
    { Params.default with ctlEnabBit := 5 }.legal = false ∧ { Params.default with ctlEnabBit := 24 }.legal = false ∧
    { Params.default with ctlResetBit := 3 }.legal = false ∧ { Params.default with ctlResetBit := 24 }.legal = false ∧
    { Params.default with ctlEnabBit := 10 }.legal = false ∧ { Params.default with ctlMashLo := 3 }.legal = false ∧
    { Params.default with ctlMashLo := 23 }.legal = false ∧ { Params.default with ctlSrcLo := 21 }.legal = false ∧
    { Params.default with ctlSrcW := 2 }.legal = false ∧ { Params.default with mashSel := 4 }.legal = false := by decide

/-! ## Decoding: words written out bit by bit from R52 to R54 and R59 -/

theorem test_decode_ctl_reset :
    decodeWrite Params.default .clkctl 0b01011010000000000000000000100000#32 = .ok .ctlReset := by decide

theorem test_decode_ctl_enable :
    decodeWrite Params.default .clkctl 0b01011010000000000000000000010000#32 = .ok .ctlEnable := by decide

theorem test_decode_ctl_mode :
    decodeWrite Params.default .clkctl 0b01011010000000000000001000010110#32 = .ok .ctlMode := by decide

theorem test_decode_ctl_off :
    decodeWrite Params.default .clkctl 0b01011010000000000000000000000000#32 = .ok .ctlOff := by decide

theorem test_decode_setdiv :
    decodeWrite Params.default .clkdiv 0b01011010000000000100111110011010#32 = .ok (.setdiv 0b000000000100111110011010#24) := by decide

theorem test_decode_fsel_clk :
    decodeWrite Params.default .pinfsel 0b00010010001101000100011001111000#32 =
      .ok (.fselClk 0b00010010001101000000011001111000#32) := by decide

theorem test_decode_fsel_in :
    decodeWrite Params.default .pinfsel 0b00010010001101000000011001111000#32 =
      .ok (.fselIn 0b00010010001101000000011001111000#32) := by decide

/-- R61: no tag, both reset and enable set, an unused bit set, another pin function, a write to the counter. -/
theorem test_decode_rejects :
    decodeWrite Params.default .clkctl 0x00000020#32 = .error .untagged ∧
    decodeWrite Params.default .clkdiv 0x00004F9A#32 = .error .untagged ∧
    decodeWrite Params.default .clkctl 0x5A000030#32 = .error .unknownControlWord ∧
    decodeWrite Params.default .clkctl 0x5A000800#32 = .error .unknownControlWord ∧
    decodeWrite Params.default .pinfsel 0x12345678#32 = .error .otherPinFunction ∧
    decodeWrite Params.default .counter 0x5A000020#32 = .error .readOnlyRegister := by decide

theorem test_decode_ports :
    decodeSelector Params.default (.pushPort true 0x4F9A#32) = .ok (.push 0x4F9A#32) ∧ decodeSelector Params.default (.pushPort false 0x4F9A#32) = .error .noPush ∧
    decodeSelector Params.default (.haltLine true) = .ok .haltreq ∧ decodeSelector Params.default (.haltLine false) = .error .noRequest ∧
    decodeSelector Params.default .microsecond = .ok .tick := by decide

/-- R14 and R50: every control point and its operation. -/
theorem test_decode_control_points :
    decodePoint .w0 = .ok .wait1 ∧ decodePoint .e1 = .ok .fselClk ∧ decodePoint .e2 = .ok .ctlReset ∧
    decodePoint .e3 = .ok .ctlEnable ∧ decodePoint .e4 = .ok .ctlMode ∧ decodePoint .e5 = .ok .rdcnt ∧
    decodePoint .s0 = .ok .waitdl ∧ decodePoint .s1 = .ok .setdiv ∧ decodePoint .s2 = .ok .next ∧
    decodePoint .x1 = .ok .ctlOff ∧ decodePoint .x2 = .ok .fselIn ∧ decodePoint .x3 = .ok .sethalt ∧
    decodePoint .done = .error .sequencerDone := by decide

theorem test_decode_producer :
    decodeSelector Params.default (.prodAt .p0 false) = .ok (.produce false) ∧ decodeSelector Params.default (.prodAt .p1 true) = .ok (.produce true) ∧
    decodeSelector Params.default (.prodAt .pdone false) = .error .producerDone ∧ decodeSelector Params.default (.sample (-32768)) = .ok (.conv (-32768)) ∧
    decodeSelector Params.default (.sample 32768) = .error .sampleRange := by decide

/-- V4.4. -/
theorem test_fsel_words :
    fselWord Params.default 0x00000000#32 0b100#3 = 0x00004000#32 ∧ fselWord Params.default 0x12345678#32 0b100#3 = 0x12344678#32 ∧
    fselWord Params.default 0x12344678#32 fselIn = 0x12340678#32 ∧ fselWord Params.default 0xFFFFFFFF#32 fselIn = 0xFFFF8FFF#32 ∧
    fselWord Params.default 0xFFFFFFFF#32 0b100#3 = 0xFFFFCFFF#32 := by decide

/-- The table's words as the host gives them: the bits of the row, nothing where a row has no bits. -/
theorem test_table_words :
    decodeTableWord 32 0x5A000216 = some .ctlMode ∧ decodeTableWord 32 0x5A004F9A = some .setdiv ∧
    decodeTableWord 16 0x4000 = some .fselClk ∧ decodeTableWord 16 0 = some .fselIn ∧ decodeTableWord 32 0x1000 = none ∧
    decodeTableWord 0 0 = none := by decide

/-- A placed word is run by the very next step (log 20). -/
theorem test_placed_word_runs :
    nextOf (step (State.reset.withFetchWord 32 0x5A004F9A)) = some { State.reset with
      held := 0x4F9A#32, cp := .s2, tClkdiv := 0x4F9A#24, tr := stampedAt 0 [.wr .clkdiv 0x5A004F9A#32] } := by decide

/-! ## Arithmetic -/

/-- V3.1 to V3.6. -/
theorem test_reached :
    reached 32 0x64 0x64 = true ∧ reached 32 0x63 0x64 = false ∧ reached 32 0x10 0xFFFFFFF0 = true ∧
    reached 32 0xFFFFFFF0 0x10 = false ∧ reached 32 0x7FFFFFFF 0 = true ∧ reached 32 0x80000000 0 = false := by decide

/-- V3.7, V3.8, and V3.10's last. -/
theorem test_deadline_advance :
    advance Params.default 0xFFFFFFF0 = 0x22 ∧ advance Params.default 0x3EC = 0x41E ∧ deadline Params.default 0xFFFFFFF0 3 = 0x86 := by
  decide

/-- V6.6. -/
theorem test_samples :
    sampleOf Params.default [0x00#8, 0x80#8] = -32768 ∧ sampleOf Params.default [0xFF#8, 0x7F#8] = 32767 ∧
    sampleOf Params.default [0xFF#8, 0xFF#8] = -1 := by decide

/-- V2.6, V2.7 (truncation), V2.14 (2^24 or more), V2.15. -/
theorem test_conversion :
    convert Params.default 16384 = some 20370#32 ∧ convert Params.default (-16384) = some 20385#32 ∧
    convert zeroCarrier 0 = some 0x01A0AAAA#32 ∧
    convert { Params.default with freqMhz := .fin false 7205759403792794 (-55) } (-32768) = some 0xFA0000#32 := by decide

/-! ## The operations, one step each -/

/-- V1.3. -/
theorem test_push_wraps :
    after (.push 0x4F9A#32) wrapped (fun t => (Memory.read t.q 1, t.head, t.count)) = some (some 0x4F9A#32, 19999, 3) := by decide

/-- V1.1, step 5. -/
theorem test_push_full : (push 0xE#32 full).1 = false ∧ after (.push 0xE#32) full id = some full := by decide

/-- V1.3. -/
theorem test_pull_wraps :
    (pull wrapped).1 = some 1#32 ∧ after .pull wrapped (fun t => (t.head, t.count)) = some (0, 1) := by decide

/-- V1.1, step 12. -/
theorem test_pull_empty : (pull State.reset).1 = none ∧ after .pull State.reset id = some State.reset := by decide

/-- V2.3: rounding to nearest would give 20363. -/
theorem test_conv_truncates : after (.conv 32767) State.reset (fun t => (t.pend, t.pcp)) = some (some 20362#32, .p1) := by decide

/-- V2.12. -/
theorem test_conv_range :
    after (.conv (-32768)) { State.reset with par := zeroCarrier } (fun t => (t.pend, t.pcp, t.faults)) =
      some (none, .pdone, [.convRange (-32768)]) := by decide

/-- V6.5. -/
theorem test_produce_short_read :
    after (.produce false) { State.reset with inp := [0x9A#8] } (fun t => (t.faults, t.halt, t.pcp)) =
      some ([.shortRead], true, .pdone) := by decide

/-- V6.4: a push that succeeds comes before the flag. -/
theorem test_produce_pushes_first :
    after (.produce false) { waiting State.reset with halt := true } (fun t => (t.count, t.pend, t.pcp)) = some (1, none, .p0) := by decide

/-- V5.2. -/
theorem test_wait1_pulls :
    after .wait1 (loaded .w0 0x4F9A#32) (fun t => (t.held, t.count, t.cp)) = some (0x4F9A#32, 0, .e1) := by decide

/-- V5.3. -/
theorem test_wait1_halt_first :
    after .wait1 { loaded .w0 0x4F9A#32 with halt := true } (fun t => (t.count, t.cp)) = some (1, .x1) := by decide

/-- V5.4. -/
theorem test_rdcnt :
    after .rdcnt { pointed .e5 with cnt := 0xFFFFFFF0 } (fun t => (t.nd, t.cp, t.events)) =
      some (0xFFFFFFF0, .s0, [.rd .counter 0xFFFFFFF0#32]) := by decide

/-- V5.5 and V5.6. -/
theorem test_waitdl_reaches :
    after .waitdl { pointed .s0 with nd := 0x41E, cnt := 0x41D } (fun t => (t.cp, t.events)) =
      some (.s0, [.rd .counter 0x41D#32]) ∧
    after .waitdl { pointed .s0 with nd := 0x41E, cnt := 0x41E } State.cp = some .s1 := by decide

/-- V5.7. -/
theorem test_waitdl_halt_first :
    after .waitdl { pointed .s0 with nd := 0x41E, cnt := 0x500, halt := true } (fun t => (t.cp, t.events)) = some (.x1, []) := by decide

/-- V5.8, V4.2. -/
theorem test_setdiv :
    after .setdiv { pointed .s1 with held := 0x4F9A#32, halt := true } (fun t => (t.cp, t.events, t.tClkdiv)) =
      some (.s2, [.wr .clkdiv 0x5A004F9A#32], 0x4F9A#24) ∧
    after .setdiv { pointed .s1 with held := 0xFFFFFF#32 } State.events = some [.wr .clkdiv 0x5AFFFFFF#32] := by decide

/-- V4.3. -/
theorem test_setdiv_range :
    after .setdiv { pointed .s1 with held := 0x01000000#32 } (fun t => (t.cp, t.events, t.faults)) =
      some (.x1, [], [.divisorRange 0x01000000#32]) := by decide

/-- V5.9. -/
theorem test_next_advances :
    after .next { loaded .s2 0x4FA9#32 with nd := 0x3EC } (fun t => (t.held, t.nd, t.count, t.cp)) =
      some (0x4FA9#32, 0x41E, 0, .s0) := by decide

/-- V5.10. -/
theorem test_next_underflow : after .next { pointed .s2 with nd := 0x41E } (fun t => (t.nd, t.cp)) = some (0x41E, .x1) := by decide

/-- V5.11. -/
theorem test_sethalt : after .sethalt (pointed .x3) (fun t => (t.halt, t.cp)) = some (true, .done) := by decide

/-- V4.5 and R110's order. -/
theorem test_enable :
    after .enable (pointed .e1) (fun t => (t.tPinfsel, t.tClkctl)) = some (0x12344678#32, 0x000216#24) ∧
    after .enable (pointed .e1) State.events = some [.rd .pinfsel 0x12345678#32, .wr .pinfsel 0x12344678#32,
      .wr .clkctl 0x5A000020#32, .wr .clkctl 0x5A000010#32, .wr .clkctl 0x5A000216#32] := by decide

/-- R111's example. -/
theorem test_fsel_clk :
    after .fselClk (pointed .e1) (fun t => (t.cp, t.events)) =
      some (.e2, [.rd .pinfsel 0x12345678#32, .wr .pinfsel 0x12344678#32]) := by decide

/-- R112's example. -/
theorem test_ctl_reset :
    after .ctlReset (pointed .e2) (fun t => (t.cp, t.events, t.tClkctl)) = some (.e3, [.wr .clkctl 0x5A000020#32], 0x20#24) := by decide

/-- R113's example. -/
theorem test_ctl_enable :
    after .ctlEnable (pointed .e3) (fun t => (t.cp, t.events, t.tClkctl)) = some (.e4, [.wr .clkctl 0x5A000010#32], 0x10#24) := by decide

/-- R114's example. -/
theorem test_ctl_mode :
    after .ctlMode (pointed .e4) (fun t => (t.cp, t.events, t.tClkctl)) = some (.e5, [.wr .clkctl 0x5A000216#32], 0x216#24) := by decide

/-- V4.5 and P3's order. -/
theorem test_disable :
    after .disable (pointed .x1) (fun t => (t.tPinfsel, t.tClkctl)) = some (0x12340678#32, 0#24) ∧
    after .disable (pointed .x1) State.events = some [.wr .clkctl 0x5A000000#32, .rd .pinfsel 0x12345678#32,
      .wr .pinfsel 0x12340678#32] := by decide

/-- R117's example. -/
theorem test_ctl_off :
    after .ctlOff { pointed .x1 with tClkctl := 0x216#24, tClkdiv := 0x4F9A#24 } (fun t => (t.cp, t.tClkctl, t.tClkdiv)) =
      some (.x2, 0#24, 0x4F9A#24) := by decide

/-- R118's example. -/
theorem test_fsel_in :
    after .fselIn { pointed .x2 with tPinfsel := 0x12344678#32 } (fun t => (t.cp, t.tPinfsel)) = some (.x3, 0x12340678#32) := by decide

/-- V6.1. -/
theorem test_haltreq :
    after .haltreq (pointed .s0) id = some { pointed .s0 with halt := true } ∧
    after .haltreq { pointed .s0 with halt := true } id = some { pointed .s0 with halt := true } := by decide

/-- V3.9. -/
theorem test_tick_wraps : after .tick { State.reset with cnt := 0xFFFFFFFF } State.cnt = some 0 := by decide

/-- V5.12: at DONE the Sequencer has no step. -/
theorem test_done_has_no_step : nextOf (takeTurn .sequencer (pointed .done)) = some (pointed .done) := by decide

/-! ## Witnesses: states and operands that meet each statement's hypotheses, clause by clause and at the ends of their ranges -/

theorem test_streaming_inv (c : ControlPoint) (h : c ≠ .done) : (streaming c).Inv where
  legal := test_default_parameters_are_legal
  queue := show Memory.wf (streaming .s0).q by decide
  head := show 2 < 20000 by decide
  count := show 0 ≤ 20000 by decide
  held := fun k hk => absurd hk (Nat.not_lt_zero k)
  cnt := show 0x41E < 2 ^ 32 by decide
  nd := show 0x41E < 2 ^ 32 by decide
  pend := show ProducerPoint.p0 = .p1 ↔ false = true by decide
  faults := List.nodup_nil
  done := fun e => absurd e h

theorem test_full_inv : full.Inv := by constructor <;> decide

theorem test_witness_ResetStatesSatisfyTheInvariants :
    ∃ s : State, s.IsReset ∧ s.par.legal = true ∧ Memory.wf s.q ∧ s.cnt < 2 ^ s.par.cw ∧ s.nd < 2 ^ s.par.cw ∧ s.cnt = 2 ^ 32 - 1 ∧
      s.tClkctl = 0x10#24 :=
  ⟨{ State.reset with cnt := 2 ^ 32 - 1, tClkctl := 0x10#24 }, by constructor <;> rfl, by decide, by decide, by decide, by decide,
    rfl, rfl⟩

theorem test_witness_DecodingAnEncodedWriteGivesItBack :
    Params.default.legal = true ∧ Params.default.fselClk ≠ fselIn ∧ (Params.default.mashSel ≠ 0 ∨ Params.default.srcSel ≠ 0) ∧
      ∀ op ∈ [BusOp.setdiv 0#24, .setdiv 0xFFFFFF#24, .fselClk 0xFFFF8FFF#32, .fselIn 0#32, .ctlReset, .ctlEnable, .ctlMode, .ctlOff],
        op.wf Params.default = true ∧ decodeWrite Params.default op.reg (encodeWord Params.default op) = .ok op := by decide

theorem test_witness_EncodingADecodedWordGivesItBack :
    Params.default.sourceWidths = true ∧ decodeWrite Params.default .clkdiv 0x5AFFFFFF#32 = .ok (.setdiv 0xFFFFFF#24) ∧
    encodeWord Params.default (.setdiv 0xFFFFFF#24) = 0x5AFFFFFF#32 ∧
    decodeWrite Params.default .pinfsel 0xFFFFCFFF#32 = .ok (.fselClk 0xFFFF8FFF#32) ∧
    encodeWord Params.default (.fselClk 0xFFFF8FFF#32) = 0xFFFFCFFF#32 := by decide

theorem test_witness_WordsNoRuleProducesAreRejected :
    tagOf Params.default 0x59FFFFFF#32 ≠ Params.default.tag ∧ tagOf Params.default 0x5A000030#32 = Params.default.tag ∧
    0x5A000030#32 ∉ [wReset Params.default, wEnable Params.default, wMode Params.default, wOff Params.default] ∧
    pinField Params.default 0x00007000#32 ≠ Params.default.fselClk ∧ pinField Params.default 0x00007000#32 ≠ fselIn := by decide

theorem test_witness_ControlWordsAreTheSumOfTheirFields :
    Params.default.legal = true ∧ 3 < 2 ^ Params.default.ctlMashW ∧ 15 < 2 ^ Params.default.ctlSrcW ∧
    (ctlWord Params.default 3 1 1 15).toNat = 0x5A * 2 ^ 24 + 3 * 2 ^ 9 + 2 ^ 5 + 2 ^ 4 + 15 := by decide

theorem test_witness_BusReadsAnswerTheCounterAndThePins : { State.reset with cnt := 2 ^ 32 - 1 }.cnt < 2 ^ 32 := by decide

theorem test_witness_BusWritesUpdateTheShadow :
    State.reset.par.sourceWidths = true ∧ (0x5A000000#32).extractLsb' 24 8 = State.reset.par.tag ∧ (0x59FFFFFF#32).extractLsb' 24 8 ≠ State.reset.par.tag := by decide

theorem test_witness_DeadlineReachedExactlyWithinHalfATurnPast :
    1 ≤ 32 ∧ 2 ^ 31 - 1 < 2 ^ 32 ∧ 0 < 2 ^ 32 ∧ reached 32 (2 ^ 31 - 1) 0 = true ∧ reached 32 (2 ^ 31) 0 = false ∧
    reached 1 0 0 = true ∧ reached 1 1 0 = false := by decide

theorem test_witness_PushStoresBehindTheLastEntryOrFails :
    { full with count := 3 }.count < full.par.qmax ∧ ¬ full.count < full.par.qmax := by decide

theorem test_witness_PullTakesTheWordAtHeadOrFails : 0 < (loaded .w0 0x4F9A#32).count ∧ State.reset.count = 0 := by decide

theorem test_witness_QueueOperationsActOnTheListOfEntries :
    full.Inv ∧ full.contents = [0xA#32, 0xB#32, 0xC#32, 0xD#32] ∧ (push 0xE#32 full).2.contents = full.contents :=
  ⟨test_full_inv, by decide, by decide⟩

theorem test_witness_ValuesComeOutInTheOrderPushed :
    (streaming .s0).Inv ∧ (streaming .s0).count = 0 ∧
      (fifoRun [some 1#32, some 2#32, none, none, none] (streaming .s0)).2.1 = [1#32, 2#32] :=
  ⟨test_streaming_inv .s0 (by decide), rfl, by decide⟩

theorem test_witness_CountStaysWithinTheQueue :
    full.count ≤ full.par.qmax ∧ (fifoRun [some 5#32, none, some 6#32] full).1 = [6#32] ∧
      (fifoRun [some 5#32, none, some 6#32] full).2.2.count = 4 := by decide

theorem test_witness_ConvFillsPendOrRecordsConvRange :
    convert State.reset.par 0 = some 20378#32 ∧ convert zeroCarrier (-32768) = none := by decide

theorem test_witness_ConversionFollowsTheFormulaAndTruncates :
    Params.default.sourceWidths = true ∧ Params.default.frac = 12 ∧ convert Params.default (-32768) = some 20393#32 ∧
    (scaledDivisor Params.default (-32768)).trunc = some 20393 := by decide

/-- A third, a tie, just below a power of two, and the ends of the range. -/
theorem test_witness_RoundingIsToNearestEven :
    2 ≤ Config.binary64.prec ∧ Config.binary64.minExp ≤ Config.binary64.maxExp ∧
    Flt.round Config.binary64 false 1 3 = .fin false 6004799503160661 (-54) ∧
    Flt.round Config.binary64 false (2 ^ 53 + 1) 1 = .fin false (2 ^ 52) 1 ∧
    Flt.round { prec := 2, minExp := -9, maxExp := 9 } false 17 10 = .fin false 3 (-1) ∧
    Flt.round { prec := 2, minExp := -9, maxExp := 9 } false 19 10 = .fin false 2 0 ∧
    Flt.round Config.binary32 false (2 ^ 128 - 2 ^ 103) 1 = .inf false ∧
    Flt.round Config.binary32 false (2 ^ 128 - 2 ^ 103 - 1) 1 = .fin false (2 ^ 24 - 1) 104 := by decide

theorem test_witness_OperationsAreExactAndRoundedOnce :
    (3 : Nat) ≠ 0 ∧ Flt.div Config.binary64 (.fin false 1 0) (.fin true 3 0) = .fin true 6004799503160661 (-54) ∧
    Flt.add Config.binary64 (.fin false 201 (-1)) (.fin true 201 (-1)) = .fin false 0 0 := by decide

theorem test_witness_SamplesAreLittleEndianSigned :
    Params.default.sourceWidths = true ∧ (Instr.conv (sampleOf Params.default [0x00#8, 0x80#8])).wf Params.default = true := by decide

theorem test_witness_ProduceTakesTheStepOfItsControlPoint :
    State.reset.par.sourceWidths = true ∧ State.reset.pcp = .p0 ∧ State.reset.halt = false ∧ State.reset.inp = [] ∧
    State.reset.inEndless = false ∧ { State.reset with halt := true }.pcp = .p0 ∧ { State.reset with inp := [0x9A#8] }.inp = [0x9A#8] ∧
    { State.reset with inp := [0x00#8, 0x80#8] }.inp = 0x00#8 :: 0x80#8 :: [] ∧
    convert State.reset.par (sampleOf Params.default [0x00#8, 0x80#8]) = some 20393#32 ∧ convert zeroCarrier (sampleOf Params.default [0x00#8, 0x80#8]) = none ∧
    (waiting State.reset).pcp = .p1 ∧ (waiting State.reset).pend = some 0x4F9A#32 ∧
    (waiting State.reset).count < (waiting State.reset).par.qmax ∧ ¬ (waiting full).count < (waiting full).par.qmax ∧
    (waiting full).halt = false ∧ { waiting full with halt := true }.halt = true := by decide

/-- The endless clauses of the same statement. -/
theorem test_witness_ProduceTakesTheStepOfItsControlPoint_endless :
    { State.reset with inEndless := true }.par.sourceWidths = true ∧ { State.reset with inEndless := true }.inp = [] ∧
    { State.reset with inEndless := true, inp := [0xFF#8] }.inp = [0xFF#8] ∧
    after (.produce false) { State.reset with inEndless := true, inp := [0xFF#8] } State.inPos = after (.conv
      (sampleOf Params.default [0xFF#8, Config.streamByte 0])) { State.reset with inEndless := true, inPos := 1 } State.inPos :=
  ⟨by decide, rfl, rfl, rfl⟩

theorem test_witness_TimeoutHaltsAndStopsTheProducer :
    { waiting State.reset with par := timed }.par.timeoutS.isSome = true ∧ { waiting State.reset with par := timed }.pcp ≠ .pdone ∧
    State.reset.par.timeoutS = none ∧ { State.reset with pcp := .pdone }.pcp = .pdone := by decide

theorem test_witness_WaitForTheFirstDivisor :
    State.reset.par.haltFirst = true ∧ (loaded .w0 1#32).par.haltFirst = true ∧ (loaded .w0 1#32).halt = false ∧
    0 < (loaded .w0 1#32).count ∧ State.reset.count = 0 ∧ { loaded .w0 1#32 with halt := true }.halt = true := by decide

theorem test_witness_LateHaltTestTakesDataAndDeadlineFirst :
    late.haltFirst = false ∧ 2 ^ 32 - 1 < 2 ^ late.cw ∧ late.cw ≤ 32 ∧
    after .wait1 { loaded .w0 1#32 with par := late, halt := true } State.cp = some .e1 ∧
    after .wait1 { State.reset with par := late, halt := true } State.cp = some .x1 := by decide

theorem test_witness_ReadCounterIntoTheFirstDeadline :
    { State.reset with cnt := 2 ^ 32 - 1 }.cnt < 2 ^ State.reset.par.cw ∧ State.reset.par.cw ≤ 32 := by decide

theorem test_witness_WaitForTheDeadline :
    (streaming .s0).par.haltFirst = true ∧ (streaming .s0).cnt < 2 ^ (streaming .s0).par.cw ∧ (streaming .s0).par.cw ≤ 32 ∧
    (streaming .s0).halt = false ∧ { streaming .s0 with halt := true }.halt = true := by decide

theorem test_witness_SetdivWritesTheHeldDivisorOrFaults :
    (pointed .s1).par.sourceWidths = true ∧ { pointed .s1 with held := 0xFFFFFF#32 }.held.toNat < 2 ^ 24 ∧ (pointed .s1).held.toNat < 2 ^ 24 ∧
    2 ^ 24 ≤ { pointed .s1 with held := 0x01000000#32 }.held.toNat ∧ 2 ^ 24 ≤ { pointed .s1 with held := 0xFFFFFFFF#32 }.held.toNat := by
  decide

theorem test_witness_NextDivisorAndDeadlineOrUnderflow : 0 < (loaded .s2 1#32).count ∧ (pointed .s2).count = 0 := by decide

theorem test_witness_StopSequenceSwitchesOffThenSetsHalt :
    (pointed .x1).par.legal = true ∧ (pointed .x1).cp = .x1 ∧
    nextOf (runUnder (fun _ => .sequencer) 0 3 (pointed .x1)) = some { pointed .x1 with
      tr := stampedAt 0 [.wr .clkctl 0x5A000000#32, .rd .pinfsel 0x12345678#32, .wr .pinfsel 0x12340678#32]
      tPinfsel := 0x12340678#32
      halt := true
      cp := .done } := by decide

theorem test_witness_PinFunctionWritesChangeTheTargetFieldOnly :
    (pointed .e1).par.fselw = 3 ∧ (pointed .e1).par.pinShift + 3 ≤ 32 ∧ { Params.default with pinShift := 29 }.pinShift + 3 ≤ 32 ∧
    pinField { Params.default with pinShift := 29 } 0xE0000000#32 = 7#3 := by decide

theorem test_witness_ClockControlWritesReplaceTheShadow :
    (pointed .e2).par.legal = true ∧ (ctlWord Params.default 1 0 1 6).extractLsb' 0 24 = 0x000216#24 := by decide

/-- One witness for the three statements on the composites. -/
theorem test_witness_EnableAndDisable :
    (pointed .e1).par.legal = true ∧
    ((nextOf (exec .enable (pointed .e1))).map State.outputEnabled) = some true ∧
    ((nextOf (exec .disable { pointed .x1 with tClkctl := 0x10#24 })).map State.outputDisabled) = some true ∧
    (pointed .e1).cp = .e1 ∧ (pointed .x1).cp = .x1 := by decide

theorem test_witness_CompositesAreTheirSteps :
    nextOf (runUnder (fun _ => .sequencer) 0 4 (pointed .e1)) = nextOf (exec .enable (pointed .e1)) ∧
    nextOf (runUnder (fun _ => .sequencer) 0 2 (pointed .x1)) = nextOf (exec .disable (pointed .x1)) := by decide

theorem test_witness_HaltRequestsAndTicksTouchOneElement :
    { State.reset with cnt := 2 ^ 32 - 2 }.cnt + 1 < 2 ^ State.reset.par.cw ∧
    { State.reset with cnt := 2 ^ 32 - 1 }.cnt + 1 = 2 ^ State.reset.par.cw := by decide

/-- Each of the four sources of R131, and an operation that is none. -/
theorem test_witness_HaltIsSetByExactlyTheListedSources :
    State.reset.halt = false ∧ after .haltreq State.reset State.halt = some true ∧ after .sethalt State.reset State.halt = some true ∧
    after (.produce true) { State.reset with par := timed } State.halt = some true ∧
    after (.produce false) { State.reset with inp := [0x9A#8] } State.halt = some true ∧
    after (.produce true) State.reset State.halt = some false := by decide

theorem test_witness_NothingClearsHalt :
    { State.reset with halt := true }.halt = true ∧ after .tick { State.reset with halt := true } State.halt = some true ∧
    (nextOf (step { State.reset with halt := true, script := [.seq] })).map State.halt = some true := by decide

/-- A selection with an operation, one without, and none. -/
theorem test_witness_StepRunsTheSelectedOperation :
    (fetch { State.reset with script := [.seq] }).1 = some (.seqAt .w0) ∧ decodeSelector Params.default (.seqAt .w0) = .ok .wait1 ∧
    (fetch { pointed .done with script := [.seq] }).1 = some (.seqAt .done) ∧ decodeSelector Params.default (.seqAt .done) = .error .sequencerDone ∧
    (fetch { State.reset with script := [.seqStar] }).1 = none := by decide

theorem test_witness_ScriptLinesRunTheirOperations :
    { State.reset with script := [.push 1#32] }.script = .push 1#32 :: [] ∧ decodePoint (pointed .e1).cp = .ok .fselClk ∧
    (pointed .done).cp = .done ∧ spinning (pointed .e1) = false ∧ spinning (pointed .w0) = true ∧ State.reset.pcp = .p0 ∧
    (Instr.conv (-32768)).wf State.reset.par = true ∧ (Instr.conv 32767).wf State.reset.par = true ∧ (waiting State.reset).pcp = .p1 ∧
    { State.reset with script := [.produce] }.script = .produce :: [] ∧ { State.reset with script := [.tick 0] }.script = .tick 0 :: [] ∧
    (nextOf (step { State.reset with script := [.sample 32767] })).map (fun t => (t.pend, t.script)) =
      some (some 20362#32, [.offer]) := by decide

/-- An empty script, each agent with a step, and the two without one. -/
theorem test_witness_TurnsRunTheOperationsOfTheirAgents :
    State.reset.script = [] ∧ decodePoint State.reset.cp = .ok .wait1 ∧ (pointed .done).cp = .done ∧ State.reset.pcp ≠ .pdone ∧
    { State.reset with pcp := .pdone }.pcp = .pdone ∧
    (nextOf (takeTurn .producerTimeout { State.reset with par := timed })).map State.halt = some true := by decide

theorem test_witness_EveryOperationCompletes :
    ((waiting full).pcp = .p1 → (waiting full).pend.isSome = true) ∧ (State.reset.pcp = .p1 → State.reset.pend.isSome = true) := by decide

/-- A step that changes something in a state of the invariant: for the statements about every step. -/
theorem test_witness_StepKeepsTheStructuralInvariant :
    ∃ s t : State, s.Inv ∧ step s = .next t ∧ t.cp = .s1 ∧ t ≠ s :=
  ⟨{ streaming .s0 with script := [.seq] }, _, { test_streaming_inv .s0 (by decide) with }, rfl, by decide, by decide⟩

theorem test_witness_TheMachineNeverStops : (streaming .s1).Inv ∧ State.reset.Inv :=
  ⟨test_streaming_inv .s1 (by decide), by constructor <;> decide⟩

/-- For the statements about any step that answers a next state: transfers, history. -/
theorem test_witness_OnlyTheListedTransfersHappen :
    (nextOf (step { streaming .s1 with script := [.seq] })).map (fun t => (t.cp, t.tr.length)) = some (.s2, 4) := by decide

theorem test_witness_HistoryOnlyGrows :
    (nextOf (step { streaming .s1 with script := [.seq], held := 0xFFFFFFFF#32 })).map State.faults =
      some [.divisorRange 0xFFFFFFFF#32] := by decide

theorem test_witness_DoneIsTerminal :
    (pointed .done).cp = .done ∧
    (nextOf (step { pointed .done with script := [.tick 1] })).map (fun t => (t.cp, t.cnt)) = some (.done, 1) := by decide

/-- An operation of each owner that changes what it owns. -/
theorem test_witness_EachElementHasItsOwnWriters :
    after .tick State.reset State.cnt = some 1 ∧ after (.push 1#32) State.reset (fun t => t.q) = some [(0, 1#32)] ∧
    after .next (loaded .s2 1#32) State.head = some 1 ∧ after .wait1 (loaded .w0 1#32) State.held = some 1#32 ∧
    after .pull (loaded .w0 1#32) State.count = some 0 ∧ after .haltreq State.reset State.halt = some true ∧
    after .setdiv { pointed .s1 with held := 0x01000000#32 } (fun t => t.faults.length) = some 1 ∧
    after .next (loaded .s2 1#32) State.nd = some 50 ∧ after .setdiv { pointed .s1 with held := 7#32 } State.tClkdiv = some 7#24 ∧
    after .ctlReset (pointed .e2) State.tClkctl = some 0x20#24 ∧ after .fselIn (pointed .x2) State.tPinfsel = some 0x12340678#32 ∧
    after (.produce false) { State.reset with inp := [0#8, 0#8] } State.inp = some [] := by decide

theorem test_witness_HaltIsObservedAtLoopBoundariesOnly : (pointed .e5).cp ≠ .w0 ∧ (pointed .e5).cp ≠ .s0 := by decide

/-- The four causes, and a state with none. -/
theorem test_witness_TheSequencerStopsForTheFourCausesOnly :
    (pointed .w0).stopping = false ∧ stopCause { pointed .w0 with halt := true } = some .haltBeforeStart ∧
    stopCause { pointed .s0 with halt := true } = some .haltWhileStreaming ∧ stopCause (pointed .s2) = some .underflow ∧
    stopCause { pointed .s1 with held := 0x01000000#32 } = some .divisorRange ∧
    stopCause { pointed .s1 with held := 0x00FFFFFF#32 } = none := by decide

theorem test_witness_StepKeepsTheTraceLawful :
    ∃ s t : State, s.par.legal = true ∧ s.TraceLawful ∧ step s = .next t ∧ t.events.length = 4 := by
  refine ⟨{ streaming .s1 with script := [.seq] }, _, by decide, ?_, rfl, by decide⟩
  intro e he
  simp only [streaming, stampedAt, State.events, State.reset, State.start, List.map_cons, List.map_nil, List.cons_append, List.nil_append,
    List.mem_cons, List.not_mem_nil, or_false] at he
  rcases he with rfl | rfl | rfl
  · exact .inl rfl
  · show tagOf _ _ = _
    decide
  · exact .inl rfl

/-- After V4.5's ENABLE, at S1: the next step writes the first divisor. -/
theorem test_witness_WritesStayInTheRequiredOrder :
    ∃ s t : State, s.par.legal = true ∧ s.WritesInOrder ∧ step s = .next t ∧ (busWrites t.events).length = 5 :=
  ⟨{ pointed .s1 with
      script := [.seq]
      tr := stampedAt 0 [.wr .pinfsel 0x12344678#32, .wr .clkctl 0x5A000020#32, .wr .clkctl 0x5A000010#32, .wr .clkctl 0x5A000216#32] },
    _, by decide, ⟨[], 0x12344678#32, by decide, by decide⟩, rfl, by decide⟩

theorem test_witness_DoneMeansTheOutputWasSwitchedOff :
    ∃ s : State, s.par.legal = true ∧ s.StopInv ∧ s.cp = .done ∧ (∃ u, u.StopInv ∧ u.cp = .x3 ∧ takeTurn .sequencer u = .next s) := by
  have h : ∀ c, c = .x3 ∨ c = .done →
      ({ pointed c with tPinfsel := 0#32, tr := stampedAt 0 [.wr .clkctl 0x5A000000#32, .wr .pinfsel 0#32], halt := true } : State).StopInv := by
    intro c hc
    rcases hc with rfl | rfl <;> exact ⟨⟨[], 0#32, by decide, by decide⟩, by decide, by decide⟩
  exact ⟨_, by decide, h .done (.inr rfl), rfl, _, h .x3 (.inl rfl), rfl, rfl⟩

/-- P1 between its two writes: the schedule, the reading before the write, and the write before it. -/
theorem test_witness_NoDivisorIsWrittenEarly :
    ∃ s t : State, s.ScheduleInv ∧ s.ReachedInv ∧ s.Timely ∧ step s = .next t ∧ t.written = [0x4F9A#24, 0x4FA9#24] := by
  refine ⟨{ streaming .s1 with script := [.seq] }, _, ?_, ?_, ?_, rfl, by decide⟩
  · exact ⟨0x3EC#32, by decide, by decide⟩
  · exact fun _ => ⟨0x41E#32, by decide, by decide⟩
  · intro before w after h
    have h' : ([.rd .counter 0x3EC#32, .wr .clkdiv 0x5A004F9A#32, .rd .counter 0x41E#32] : List BusEvent) =
        before ++ .wr .clkdiv w :: after := h
    rcases before with _ | ⟨a, _ | ⟨b, _ | ⟨c, _ | ⟨d, rest⟩⟩⟩⟩ <;> simp at h'
    obtain ⟨rfl, -⟩ := h'
    exact ⟨0x3EC#32, 0x3EC#32, by decide, by decide, by decide⟩

theorem test_witness_DeadlinesDoNotDrift :
    ∃ s t : State, s.ScheduleInv ∧ step s = .next t ∧ t.nd = 0x41E ∧ t.cp = .s2 :=
  ⟨{ streaming .s1 with script := [.seq] }, _, ⟨0x3EC#32, by decide, by decide⟩, rfl, by decide, by decide⟩

theorem test_witness_DivisorsReachTheTargetInOrder :
    (streaming .s0).Inv ∧ (streaming .s0).stopping = false ∧ (streaming .s0).pipeline = [0x4F9A#24, 0x4FA9#24] :=
  ⟨test_streaming_inv .s0 (by decide), rfl, by decide⟩

/-- The longest way of R102 under a schedule with another agent between, and the step that writes a divisor. -/
theorem test_witness_NineStepsFromHaltToDone :
    ({ streaming .e1 with halt := true }).Inv ∧ { streaming .e1 with halt := true }.halt = true ∧
    (streaming .e1).par.haltFirst = true ∧ stepsToDone (streaming .e1).cp = 9 ∧
    turnsOf (fun k => if k % 2 = 0 then .counter else .sequencer) .sequencer 18 = 9 ∧
    (nextOf (runUnder (fun _ => .sequencer) 0 1 { pointed .s1 with halt := true, held := 7#32 })).map State.written = some [7#24] :=
  ⟨{ test_streaming_inv .e1 (by decide) with done := fun _ => rfl }, rfl, rfl, rfl, by decide, by decide⟩

/-- A schedule that gives each agent every fifth turn is weakly fair; a state with HALT set, and one that waits at S0. -/
theorem test_witness_FairSchedulesMakeProgress :
    WeaklyFair (fun n => [.producer, .producerTimeout, .sequencer, .counter, .haltSource].getD (n % 5) .counter) ∧
      (∃ s : State, s.Inv ∧ s.StopInv ∧ s.par.haltFirst = true ∧ s.halt = true) ∧ ∃ s : State, s.Inv ∧ s.cp = .s0 ∧
        reached s.par.cw s.cnt s.nd = false := by
  have turn : ∀ n k, k < 5 → n ≤ 5 * n + k ∧ (5 * n + k) % 5 = k := fun n k hk => ⟨by omega, by omega⟩
  refine ⟨⟨fun n => ⟨5 * n + 2, (turn n 2 (by decide)).1, ?_⟩, fun n => ⟨5 * n + 3, (turn n 3 (by decide)).1, ?_⟩,
    fun n => ⟨5 * n, (turn n 0 (by decide)).1, .inl ?_⟩⟩,
    ⟨{ streaming .s0 with halt := true }, { test_streaming_inv .s0 (by decide) with done := fun _ => rfl }, trivial, rfl, rfl⟩,
    ⟨{ streaming .s0 with cnt := 0x41D }, { test_streaming_inv .s0 (by decide) with cnt := show 0x41D < 2 ^ 32 by decide }, rfl,
      by decide⟩⟩
  · simp [(turn n 2 (by decide)).2]
  · simp [(turn n 3 (by decide)).2]
  · simp

theorem test_witness_AddressesAreNeverRead :
    after .tick (State.reset.withAddresses none (some 0x7E101070) none none) State.cnt = some 1 ∧
    (nextOf (step { State.reset with script := [.seq] })).map State.cp = some .w0 := by decide

end Sys2Proof.Tests
end

section
/-! PROOFS. The scope family (spec/00_scope.md): what the widths of R6 fix, the conversion (R80, R82), the sample (R35, R64), the late
halt test (R8), and that no rule reads an address (R32, R38). -/

namespace Sys2Proof.Machine

/-! ## The widths of the source -/

/-- The bits of a sample and of a divisor value where the widths are the source's (R6). -/
theorem sampleW_eq {p : Params} (hw : p.sourceWidths = true) : p.sampleW = 16 := by
  simp only [Params.sourceWidths, decide_eq_true_eq] at hw
  exact hw.1

theorem dw_eq {p : Params} (hw : p.sourceWidths = true) : p.dw = 32 := by
  simp only [Params.sourceWidths, decide_eq_true_eq] at hw
  obtain ⟨-, -, hdw, -⟩ := hw
  exact hdw

/-! ## The sample -/

/-- A word of `n` bits has a signed value of `n` bits (spec/00_scope.md section 5). -/
theorem sint_mem_range {n v : Nat} (hn : 1 ≤ n) (hv : v < 2 ^ n) : -2 ^ (n - 1) ≤ sint n v ∧ sint n v < 2 ^ (n - 1) := by
  obtain ⟨k, rfl⟩ := Nat.exists_eq_add_of_le' hn
  rw [Nat.pow_succ] at hv
  have hcast : ((2 ^ k : Nat) : Int) = 2 ^ k := by simp
  simp only [sint, Nat.add_sub_cancel, pow_succ]
  split <;> omega

/-- Two bytes of the stream as a number (R35). -/
theorem littleEndian_pair (b0 b1 : Byte) : littleEndian [b0, b1] = 256 * b1.toNat + b0.toNat := by
  simp only [littleEndian]
  omega

/-! ## The conversion -/

/-- CONV has a result exactly where the scaled quotient has an integer part of DW bits, and the result is that part's word (R80, R82). -/
theorem convert_eq_some_iff (p : Params) (v : Int) (d : Word) :
    convert p v = some d ↔ ∃ t, (scaledDivisor p v).trunc = some t ∧ 0 ≤ t ∧ t < 2 ^ p.dw ∧ BitVec.ofInt 32 t = d := by
  unfold convert
  cases (scaledDivisor p v).trunc with
  | none => simp
  | some t => simp [and_assoc]

/-- The word of an integer in the range of 32 bits has that integer as its number. -/
theorem ofInt_eq_iff_toNat_eq {t : Int} (h0 : 0 ≤ t) (h1 : t < 2 ^ 32) (d : Word) : BitVec.ofInt 32 t = d ↔ (d.toNat : Int) = t := by
  have ht : ((BitVec.ofInt 32 t).toNat : Int) = t := by simp only [BitVec.toNat_ofInt]; omega
  rw [← BitVec.toNat_inj]
  omega

/-- With the widths and the scale of R6 the scaled quotient is R80's five operations on full scale 32768 and scale 4096. -/
theorem scaledDivisor_eq {p : Params} (hw : p.sourceWidths = true) (hf : p.frac = 12) (v : Int) :
    scaledDivisor p v = Flt.mul p.fmt (Flt.div p.fmt p.clockSourceMhz (Flt.add p.fmt p.freqMhz
      (Flt.mul p.fmt (Flt.div p.fmt (.ofInt v) (.ofInt 32768)) (Flt.div p.fmt p.devKhz (.ofInt 1000))))) (.ofInt 4096) := by
  have hs : (2 : Int) ^ (p.sampleW - 1) = 32768 := by rw [sampleW_eq hw]; rfl
  have hq : (2 : Int) ^ p.frac = 4096 := by rw [hf]; rfl
  rw [scaledDivisor, targetFreq, devMhz, hs, hq]

@[simp] theorem natAbs_signedMan (neg : Bool) (m : Nat) : (signedMan neg m).natAbs = m := by
  cases neg <;> simp [signedMan]

theorem neg_eq_false_of_signedMan_pos {neg : Bool} {m : Nat} (h : 0 < signedMan neg m) : neg = false := by
  cases neg with
  | false => rfl
  | true => simp only [signedMan, if_true] at h; omega

theorem neg_eq_true_of_signedMan_neg {neg : Bool} {m : Nat} (h : signedMan neg m < 0) : neg = true := by
  cases neg with
  | false => simp only [signedMan, Bool.false_eq_true, if_false] at h; omega
  | true => rfl

/-- `trunc` is toward zero: its size is the integer quotient, so at most the number's and less than 1 below it, with the number's sign. -/
theorem trunc_fin (neg : Bool) (m : Nat) (e : Int) : ∃ t : Int, (Flt.fin neg m e).trunc = some t ∧
    t.natAbs * 2 ^ (-e).toNat ≤ m * 2 ^ e.toNat ∧ m * 2 ^ e.toNat < (t.natAbs + 1) * 2 ^ (-e).toNat ∧
    (0 < t → neg = false) ∧ (t < 0 → neg = true) := by
  refine ⟨_, rfl, ?_, ?_, neg_eq_false_of_signedMan_pos, neg_eq_true_of_signedMan_neg⟩
  · rw [natAbs_signedMan]
    exact Nat.div_mul_le_self _ _
  · rw [natAbs_signedMan, Nat.mul_comm _ (2 ^ (-e).toNat)]
    exact Nat.lt_mul_div_succ _ (Nat.two_pow_pos _)

/-! ## The wait operations past the first halt test -/

/-- A counter value read as a word is the counter, at any width up to a word's (R55). -/
theorem countOf_ofNat {p : Params} {c : Nat} (hc : c < 2 ^ p.cw) (hcw : p.cw ≤ 32) : countOf p (BitVec.ofNat 32 c) = c := by
  have h32 : c < 2 ^ 32 := Nat.lt_of_lt_of_le hc (Nat.pow_le_pow_right (by decide) hcw)
  rw [countOf, BitVec.toNat_ofNat, Nat.mod_eq_of_lt h32, Nat.mod_eq_of_lt hc]

/-- WAIT1 where HALT does not come first, with data and without (R91; log 9). -/
theorem exec_wait1_of_pos {s : State} (hh : (s.par.haltFirst && s.halt) = false) (hc : 0 < s.count) :
    exec .wait1 s =
      .next { s with held := s.readQ s.head, head := (s.head + 1) % s.par.qmax, count := s.count - 1, cp := .e1 } := by
  simp only [exec, execWait1, hh, Bool.false_eq_true, if_false, pull_of_pos hc, State.goto]

theorem exec_wait1_of_empty {s : State} (hh : (s.par.haltFirst && s.halt) = false) (hc : s.count = 0) :
    exec .wait1 s = .next { s with cp := if s.halt then .x1 else .w0 } := by
  simp only [exec, execWait1, hh, Bool.false_eq_true, if_false, pull_of_empty hc, State.enterStop, State.goto]
  split <;> rfl

/-- WAITDL where HALT does not come first: the read, the deadline, and then HALT (R94; log 9). -/
theorem exec_waitdl_of_read {s : State} (hh : (s.par.haltFirst && s.halt) = false) :
    exec .waitdl s = .next { s with
      tr := s.tr ++ s.stamped [counterRead s]
      cp := if reached s.par.cw (countOf s.par (BitVec.ofNat 32 s.cnt)) s.nd then .s1 else if s.halt then .x1 else .s0 } := by
  simp only [exec, execWaitdl, hh, Bool.false_eq_true, if_false, memRead_counter, afterBus_ok]
  split
  · rfl
  · change Host.Outcome.next (if s.halt then _ else _) = _
    split <;> rfl

/-! ## No rule reads an address

Each function of the model commutes with a change of the addresses: it answers the same, in the state with the addresses changed. Its tests
are the same by computation, so the change passes through its branches (`apply_ite`) and reaches the states they answer. -/

/-- An outcome with its next state, if it is one, changed. -/
def mapNext (f : State → State) : Host.Outcome State Fault Refusal → Host.Outcome State Fault Refusal
  | .next s => .next (f s)
  | .fault r => .fault r
  | .refused r => .refused r

@[simp] theorem mapNext_next (f : State → State) (s : State) : mapNext f (.next s) = .next (f s) := rfl

/-- A change of the four addresses (R8, R38). -/
structure Addresses where
  counter : Option Nat
  clkctl : Option Nat
  clkdiv : Option Nat
  pinfsel : Option Nat

/-- The state under those addresses. -/
def Addresses.on (a : Addresses) (s : State) : State := s.withAddresses a.counter a.clkctl a.clkdiv a.pinfsel

/-- A read of the stream with its rest, if it finds a sample, changed. -/
def StreamRead.mapRest (f : State → State) : StreamRead → StreamRead
  | .endOfStream => .endOfStream
  | .partOfSample => .partOfSample
  | .sample v rest => .sample v (f rest)

namespace Addresses
variable (a : Addresses) (s : State)

@[simp] theorem on_pcp : (a.on s).pcp = s.pcp := rfl
@[simp] theorem on_pend : (a.on s).pend = s.pend := rfl
@[simp] theorem on_script : (a.on s).script = s.script := rfl
@[simp] theorem convert_on (v : Int) : convert (a.on s).par v = convert s.par v := rfl
@[simp] theorem decodeSelector_on (x : Selector) : decodeSelector (a.on s).par x = decodeSelector s.par x := rfl

@[simp] theorem turnSelector_on (w : Turn) : turnSelector (a.on s) w = turnSelector s w := by cases w <;> rfl

theorem push_on (d : Word) : push d (a.on s) = ((push d s).1, a.on (push d s).2) := by
  by_cases h : s.count < s.par.qmax
  · rw [push_of_lt d h, push_of_lt (s := a.on s) d h]; rfl
  · rw [push_of_full d h, push_of_full (s := a.on s) d h]

theorem pull_on : pull (a.on s) = ((pull s).1, a.on (pull s).2) := by
  rcases Nat.eq_zero_or_pos s.count with h | h
  · rw [pull_of_empty h, pull_of_empty (s := a.on s) h]
  · rw [pull_of_pos h, pull_of_pos (s := a.on s) h]; rfl

theorem takeSample_on (v : Int) : takeSample v (a.on s) = a.on (takeSample v s) := by
  unfold takeSample
  rw [convert_on]
  cases convert s.par v <;> rfl

theorem readSample_on : readSample (a.on s) = (readSample s).mapRest a.on := by
  unfold readSample
  simp only [apply_ite (StreamRead.mapRest a.on)]
  rfl

theorem produceRead_on : produceRead (a.on s) = a.on (produceRead s) := by
  unfold produceRead
  rw [apply_ite a.on, readSample_on]
  cases readSample s with
  | endOfStream => rfl
  | partOfSample => rfl
  | sample v rest =>
    dsimp only [StreamRead.mapRest]
    rw [takeSample_on]
    rfl

theorem produceOffer_on : produceOffer (a.on s) = mapNext a.on (produceOffer s) := by
  unfold produceOffer
  rw [on_pend]
  cases s.pend with
  | none => rfl
  | some d =>
    dsimp only
    rw [push_on]
    obtain ⟨ok, t⟩ := push d s
    cases ok with
    | true => rfl
    | false =>
      simp only [mapNext_next, apply_ite a.on]
      rfl

theorem execProduce_on (late : Bool) : execProduce late (a.on s) = mapNext a.on (execProduce late s) := by
  unfold execProduce
  rw [on_pcp, produceRead_on, produceOffer_on]
  cases s.pcp with
  | pdone => rfl
  | p0 | p1 =>
    simp only [apply_ite (mapNext a.on)]
    rfl

theorem execWait1_on : execWait1 (a.on s) = mapNext a.on (execWait1 s) := by
  unfold execWait1
  rw [apply_ite (mapNext a.on), pull_on]
  obtain ⟨v, t⟩ := pull s
  cases v with
  | some v => rfl
  | none =>
    simp only [mapNext_next, apply_ite a.on]
    rfl

theorem execWaitdl_on : execWaitdl (a.on s) = mapNext a.on (execWaitdl s) := by
  simp only [execWaitdl, memRead_counter, afterBus_ok, apply_ite (mapNext a.on), mapNext_next, apply_ite a.on]
  rfl

theorem execSetdiv_on : execSetdiv (a.on s) = mapNext a.on (execSetdiv s) := by
  unfold execSetdiv
  rw [apply_ite (mapNext a.on)]
  rfl

theorem execNext_on : execNext (a.on s) = mapNext a.on (execNext s) := by
  unfold execNext
  rw [pull_on]
  obtain ⟨v, t⟩ := pull s
  cases v <;> rfl

/-- The operations without a lemma of their own branch on nothing: the two outcomes are one by computation. -/
theorem exec_on (i : Instr) : exec i (a.on s) = mapNext a.on (exec i s) := by
  cases i with
  | push d => exact congrArg (fun x => Host.Outcome.next x.2) (push_on a s d)
  | pull => exact congrArg (fun x => Host.Outcome.next x.2) (pull_on a s)
  | conv v => exact congrArg Host.Outcome.next (takeSample_on a s v)
  | produce late => exact execProduce_on a s late
  | wait1 => exact execWait1_on a s
  | waitdl => exact execWaitdl_on a s
  | setdiv => exact execSetdiv_on a s
  | next => exact execNext_on a s
  | rdcnt | sethalt | haltreq | tick => rfl
  | enable | disable | fselClk | fselIn | ctlReset | ctlEnable | ctlMode | ctlOff => rfl

theorem fetch_on : fetch (a.on s) = ((fetch s).1, a.on (fetch s).2) := by
  unfold fetch
  rw [on_script]
  cases s.script with
  | nil => exact congrArg (fun x => (some x, _)) (turnSelector_on a s _)
  | cons line rest => rfl

theorem perform_on (sel : Option Selector) : perform sel (a.on s) = mapNext a.on (perform sel s) := by
  cases sel with
  | none => rfl
  | some x =>
    simp only [perform, decodeSelector_on]
    cases decodeSelector s.par x with
    | error _ => rfl
    | ok i => exact exec_on a s i

theorem step_on : step (a.on s) = mapNext a.on (step s) := by
  rw [step, fetch_on]
  exact perform_on a _ _

end Addresses

/-! ## The obligations -/

/-- Settles O18: R80's operations at R6's widths, and the integer quotient of the truncation. -/
theorem conversionFollowsTheFormulaAndTruncates : Obligations.ConversionFollowsTheFormulaAndTruncates := by
  refine ⟨fun p v hw hf => ?_, fun p v d hw => ?_, rfl, fun _ => rfl, trunc_fin⟩
  · exact ⟨_, _, _, _, rfl, rfl, rfl, rfl, scaledDivisor_eq hw hf v⟩
  · rw [convert_eq_some_iff, dw_eq hw]
    refine exists_congr fun t => and_congr_right fun _ => and_congr_right fun h0 => and_congr_right fun h1 => ?_
    exact ofInt_eq_iff_toNat_eq h0 h1 d

/-- Settles O21: the number of two bytes at 16 bits is in the range of a 16-bit sample. -/
theorem samplesAreLittleEndianSigned : Obligations.SamplesAreLittleEndianSigned := by
  intro p b0 b1 hw
  have hs : sampleOf p [b0, b1] = sint 16 (256 * b1.toNat + b0.toNat) := by rw [sampleOf, sampleW_eq hw, littleEndian_pair]
  refine ⟨hs, ?_⟩
  rw [hs, Instr.wf, sampleW_eq hw, decide_eq_true_eq]
  exact sint_mem_range (by decide) (by have := b0.isLt; have := b1.isLt; omega)

/-- Settles O25: with HALT_FIRST false the first halt test never holds. -/
theorem lateHaltTestTakesDataAndDeadlineFirst : Obligations.LateHaltTestTakesDataAndDeadlineFirst := by
  intro s hf hcnt hcw
  have hh : (s.par.haltFirst && s.halt) = false := by rw [hf, Bool.false_and]
  refine ⟨exec_wait1_of_pos hh, exec_wait1_of_empty hh, ?_⟩
  rw [exec_waitdl_of_read hh, countOf_ofNat hcnt hcw]
  rfl

/-- Settles O60: every operation and every step commutes with a change of the addresses. -/
theorem addressesAreNeverRead : Obligations.AddressesAreNeverRead := by
  intro s t counter clkctl clkdiv pinfsel
  have hexec := Addresses.exec_on ⟨counter, clkctl, clkdiv, pinfsel⟩ s
  have hstep := Addresses.step_on ⟨counter, clkctl, clkdiv, pinfsel⟩ s
  exact ⟨fun i h => (hexec i).trans (congrArg (mapNext _) h), fun h => hstep.trans (congrArg (mapNext _) h)⟩

end Sys2Proof.Machine
end

section
/-! PROOFS. The state family (spec/10_state.md): what each operation may write (R121, R151), what only grows (R22, R23, R132), the end of
the Sequencer (R98), the ring buffer as a list (R13), the structural invariant over every step (R11 to R24, R172), reset (R26), and the
Producer's step (R83). -/

namespace Sys2Proof.Machine

/-! ## What each operation may write -/

theorem State.faults_subset_raise (s : State) (f : FaultRecord) : s.faults ⊆ (s.raise f).faults :=
  fun _ hg => (s.mem_raise_faults f _).2 (.inl hg)

/-- The table of ownership: the elements an operation may give new values, every other being as it was. The trace and FAULTS are written by
adding to them (R22, R23), and the Producer writes HALT by setting it (R131). -/
inductive Frame (s : State) : Instr → State → Prop
  | push {d q count} : Frame s (.push d) { s with q := q, count := count }
  | pull {head count} : Frame s .pull { s with head := head, count := count }
  | conv {v pend pcp faults} (hf : s.faults ⊆ faults) : Frame s (.conv v) { s with pend := pend, pcp := pcp, faults := faults }
  | produce {late q count halt inp inPos pend pcp faults} (hh : s.halt = true → halt = true) (hf : s.faults ⊆ faults) :
    Frame s (.produce late) { s with
      q := q, count := count, halt := halt, inp := inp, inPos := inPos, pend := pend, pcp := pcp, faults := faults }
  | wait1 {held head count cp} : Frame s .wait1 { s with held := held, head := head, count := count, cp := cp }
  | rdcnt {nd tr cp} (ht : s.tr <+: tr) : Frame s .rdcnt { s with nd := nd, tr := tr, cp := cp }
  | waitdl {tr cp} (ht : s.tr <+: tr) : Frame s .waitdl { s with tr := tr, cp := cp }
  | setdiv {clkdiv tr cp faults} (ht : s.tr <+: tr) (hf : s.faults ⊆ faults) :
    Frame s .setdiv { s with tClkdiv := clkdiv, tr := tr, cp := cp, faults := faults }
  | next {held head count nd cp} : Frame s .next { s with held := held, head := head, count := count, nd := nd, cp := cp }
  | sethalt {cp} : Frame s .sethalt { s with halt := true, cp := cp }
  | enable {pinfsel clkctl tr cp} (ht : s.tr <+: tr) :
    Frame s .enable { s with tPinfsel := pinfsel, tClkctl := clkctl, tr := tr, cp := cp }
  | fselClk {pinfsel tr cp} (ht : s.tr <+: tr) : Frame s .fselClk { s with tPinfsel := pinfsel, tr := tr, cp := cp }
  | ctlReset {clkctl tr cp} (ht : s.tr <+: tr) : Frame s .ctlReset { s with tClkctl := clkctl, tr := tr, cp := cp }
  | ctlEnable {clkctl tr cp} (ht : s.tr <+: tr) : Frame s .ctlEnable { s with tClkctl := clkctl, tr := tr, cp := cp }
  | ctlMode {clkctl tr cp} (ht : s.tr <+: tr) : Frame s .ctlMode { s with tClkctl := clkctl, tr := tr, cp := cp }
  | disable {pinfsel clkctl tr cp} (ht : s.tr <+: tr) :
    Frame s .disable { s with tPinfsel := pinfsel, tClkctl := clkctl, tr := tr, cp := cp }
  | ctlOff {clkctl tr cp} (ht : s.tr <+: tr) : Frame s .ctlOff { s with tClkctl := clkctl, tr := tr, cp := cp }
  | fselIn {pinfsel tr cp} (ht : s.tr <+: tr) : Frame s .fselIn { s with tPinfsel := pinfsel, tr := tr, cp := cp }
  | haltreq : Frame s .haltreq { s with halt := true }
  | tick {cnt} : Frame s .tick { s with cnt := cnt }

section Frames
variable {s t : State}

theorem takeSample_frame (v : Int) (s : State) :
    ∃ pend pcp faults, s.faults ⊆ faults ∧ takeSample v s = { s with pend := pend, pcp := pcp, faults := faults } := by
  rcases takeSample_cases v s with ⟨d, -, h⟩ | ⟨-, h⟩ <;> rw [h]
  · exact ⟨_, _, _, List.Subset.refl _, rfl⟩
  · exact ⟨_, _, _, s.faults_subset_raise _, rfl⟩

theorem exec_produce_frame {late : Bool} (h : exec (.produce late) s = .next t) : Frame s (.produce late) t := by
  rcases exec_produce_cases h with ⟨-, rfl⟩ | ⟨-, -, -, rfl⟩ | ⟨-, rfl⟩ | ⟨-, -, -, -, -, rfl⟩ | ⟨-, -, v, inp, inPos, rfl⟩ |
    ⟨-, d, -, -, rfl⟩ | ⟨-, -, -, rfl⟩ | ⟨-, -, -, rfl⟩
  · exact .produce id (List.Subset.refl _)
  · exact .produce (fun _ => rfl) (List.Subset.refl _)
  · exact .produce id (List.Subset.refl _)
  · exact .produce (fun _ => rfl) (s.faults_subset_raise _)
  · obtain ⟨pend, pcp, faults, hf, hv⟩ := takeSample_frame v { s with inp := inp, inPos := inPos }
    rw [hv]
    exact .produce id hf
  · obtain ⟨q, count, hp⟩ := push_frame d s
    rw [hp]
    exact .produce id (List.Subset.refl _)
  · exact .produce id (List.Subset.refl _)
  · exact .produce id (List.Subset.refl _)

/-- Every operation keeps to its row of the table. -/
theorem exec_frame {i : Instr} (h : exec i s = .next t) : Frame s i t := by
  cases i with
  | push d =>
    cases h
    obtain ⟨q, count, hp⟩ := push_frame d s
    exact hp ▸ .push
  | pull =>
    cases h
    obtain ⟨head, count, hp⟩ := pull_frame s
    exact hp ▸ .pull
  | conv v =>
    cases h
    obtain ⟨pend, pcp, faults, hf, hv⟩ := takeSample_frame v s
    exact hv ▸ .conv hf
  | produce late => exact exec_produce_frame h
  | wait1 => rcases exec_wait1_cases h with ⟨-, -, rfl⟩ | ⟨-, -, rfl⟩ | ⟨-, -, rfl⟩ <;> exact .wait1
  | rdcnt => cases h; exact .rdcnt (List.prefix_append _ _)
  | waitdl =>
    rcases exec_waitdl_cases h with ⟨-, -, rfl⟩ | ⟨-, -, rfl⟩ | ⟨-, -, rfl⟩
    · exact .waitdl List.prefix_rfl
    · exact .waitdl (List.prefix_append _ _)
    · exact .waitdl (List.prefix_append _ _)
  | setdiv =>
    rcases exec_setdiv_cases h with ⟨-, rfl⟩ | ⟨-, rfl⟩
    · exact .setdiv (List.prefix_append _ _) (List.Subset.refl _)
    · exact .setdiv List.prefix_rfl (s.faults_subset_raise _)
  | next => rcases exec_next_cases h with ⟨-, rfl⟩ | ⟨-, rfl⟩ <;> exact .next
  | sethalt => cases h; exact .sethalt
  | enable =>
    simp only [exec_enable, exec_fselClk, exec_ctlReset, exec_ctlEnable, exec_ctlMode, pinWrite_next, controlWrite_next,
      andThen_next] at h
    cases h
    exact .enable (by simp)
  | disable =>
    simp only [exec_disable, exec_ctlOff, exec_fselIn, pinWrite_next, controlWrite_next, andThen_next] at h
    cases h
    exact .disable (by simp)
  | fselClk => rw [exec_fselClk, pinWrite_next] at h; cases h; exact .fselClk (List.prefix_append _ _)
  | fselIn => rw [exec_fselIn, pinWrite_next] at h; cases h; exact .fselIn (List.prefix_append _ _)
  | ctlReset => cases h; exact .ctlReset (List.prefix_append _ _)
  | ctlEnable => cases h; exact .ctlEnable (List.prefix_append _ _)
  | ctlMode => cases h; exact .ctlMode (List.prefix_append _ _)
  | ctlOff => cases h; exact .ctlOff (List.prefix_append _ _)
  | haltreq => cases h; exact .haltreq
  | tick => cases h; exact .tick

/-- A step moves the stimulus on, and then changes nothing or runs one operation. -/
theorem step_exec (h : step s = .next t) :
    ∃ script turn, t = { s with script := script, turn := turn } ∨ ∃ i, exec i { s with script := script, turn := turn } = .next t := by
  obtain ⟨script, turn, hu⟩ := fetch_frame s
  refine ⟨script, turn, ?_⟩
  rw [← hu]
  exact (perform_cases h).imp_right fun ⟨_, i, _, _, hi⟩ => ⟨i, hi⟩

end Frames

/-- Settles O49, row by row of the table of ownership. -/
theorem eachElementHasItsOwnWriters : Obligations.EachElementHasItsOwnWriters := by
  intro i s t h
  cases exec_frame h <;> simp

/-! ## What only grows -/

/-- The parameters stay, the trace and FAULTS are only added to, and HALT is only set (R22, R23, R25, R132). -/
structure State.Grows (s t : State) : Prop where
  par : t.par = s.par
  tr : s.tr <+: t.tr
  faults : s.faults ⊆ t.faults
  halt : s.halt = true → t.halt = true

theorem exec_grows {i : Instr} {s t : State} (h : exec i s = .next t) : s.Grows t := by
  cases exec_frame h with
  | push | pull | wait1 | next | tick => exact ⟨rfl, List.prefix_rfl, List.Subset.refl _, id⟩
  | sethalt | haltreq => exact ⟨rfl, List.prefix_rfl, List.Subset.refl _, fun _ => rfl⟩
  | conv hf => exact ⟨rfl, List.prefix_rfl, hf, id⟩
  | produce hh hf => exact ⟨rfl, List.prefix_rfl, hf, hh⟩
  | setdiv ht hf => exact ⟨rfl, ht, hf, id⟩
  | rdcnt ht | waitdl ht | fselClk ht | fselIn ht => exact ⟨rfl, ht, List.Subset.refl _, id⟩
  | ctlReset ht | ctlEnable ht | ctlMode ht | ctlOff ht => exact ⟨rfl, ht, List.Subset.refl _, id⟩
  | enable ht | disable ht => exact ⟨rfl, ht, List.Subset.refl _, id⟩

theorem step_grows {s t : State} (h : step s = .next t) : s.Grows t := by
  obtain ⟨script, turn, rfl | ⟨i, hi⟩⟩ := step_exec h
  · exact ⟨rfl, List.prefix_rfl, List.Subset.refl _, id⟩
  · obtain ⟨hpar, htr, hfaults, hhalt⟩ := exec_grows hi
    exact ⟨hpar, htr, hfaults, hhalt⟩

/-- Settles O39: every operation keeps HALT set, and each of the two settings leaves HALT at 1 and `cp` at DONE. -/
theorem nothingClearsHalt : Obligations.NothingClearsHalt :=
  ⟨fun _ _ _ h => (exec_grows h).halt, fun _ _ h => (step_grows h).halt, fun _ => rfl⟩

/-- Settles O47: every operation only adds to the history, and what a step does besides is to the stimulus. -/
theorem historyOnlyGrows : Obligations.HistoryOnlyGrows :=
  fun _ _ h => ⟨(step_grows h).par, (step_grows h).tr, (step_grows h).faults⟩

/-! ## The end of the Sequencer -/

/-- Settles O48: at DONE no control point selects an operation, and in the table of ownership the operations of the other agents have none of
the Sequencer's elements. -/
theorem doneIsTerminal : Obligations.DoneIsTerminal := by
  intro s hd
  refine ⟨by simp only [takeTurn_sequencer, hd, decodePoint], fun t h => ?_⟩
  obtain ⟨u, ⟨script, turn, rfl⟩, rfl | ⟨i, hi, -⟩ | ⟨d, h⟩ | h | h | ⟨late, h⟩ | ⟨-, v, -, h⟩⟩ := step_cases h
  · exact ⟨hd, rfl, rfl, rfl, rfl, rfl, rfl⟩
  · have hnone : decodePoint s.cp = .error .sequencerDone := congrArg decodePoint hd
    cases hnone.symm.trans hi
  all_goals
    cases exec_frame h
    exact ⟨hd, rfl, rfl, rfl, rfl, rfl, rfl⟩

/-! ## The ring buffer -/

/-- Entries of the ring at different distances from HEAD have different indices. -/
theorem ring_index_inj {h k n q : Nat} (hk : k < q) (hn : n < q) (he : (h + k) % q = (h + n) % q) : k = n :=
  Nat.ModEq.eq_of_lt_of_lt (Nat.ModEq.add_left_cancel' h he) hk hn

/-- An entry's index counted from the next HEAD (R71). -/
theorem ring_index_succ (h k q : Nat) : ((h + 1) % q + k) % q = (h + (k + 1)) % q := by
  rw [Nat.mod_add_mod, Nat.add_right_comm, Nat.add_assoc]

section Ring
variable {s : State}

/-- What PUSH writes is read behind the last entry (R70). -/
theorem read_pushed_last (d : Word) :
    (Memory.write s.q s.pushIndex d).read ((s.head + s.count) % s.par.qmax) = some d :=
  Memory.read_write_self _ _ _

/-- The entries held are read as before: PUSH writes at none of their indices (R70). -/
theorem read_pushed_held (d : Word) (hc : s.count < s.par.qmax) {k : Nat} (hk : k < s.count) :
    (Memory.write s.q s.pushIndex d).read ((s.head + k) % s.par.qmax) = Memory.read s.q ((s.head + k) % s.par.qmax) :=
  Memory.read_write_other _ _ fun he => hk.ne (ring_index_inj (hk.trans hc) hc he)

theorem contents_push (d : Word) (hc : s.count < s.par.qmax) : (push d s).2.contents = s.contents ++ [d] := by
  rw [push_of_lt d hc]
  simp only [State.contents, State.readQ, List.range_succ, List.map_append, List.map_cons, List.map_nil, read_pushed_last,
    Option.getD_some]
  refine congrArg (· ++ [d]) (List.map_congr_left fun k hk => ?_)
  rw [read_pushed_held d hc (List.mem_range.1 hk)]

theorem contents_pull (hh : s.head < s.par.qmax) (hc : 0 < s.count) : s.contents = s.readQ s.head :: (pull s).2.contents := by
  rw [pull_of_pos hc]
  obtain ⟨n, hn⟩ := Nat.exists_eq_add_one_of_ne_zero hc.ne'
  simp only [State.contents, State.readQ, hn, Nat.add_sub_cancel, List.range_succ_eq_map, List.map_cons, List.map_map,
    Nat.add_zero, Nat.mod_eq_of_lt hh]
  refine congrArg _ (List.map_congr_left fun k _ => ?_)
  simp only [Function.comp_apply, ring_index_succ, Nat.succ_eq_add_one]

theorem contents_empty (hc : s.count = 0) : s.contents = [] := by
  rw [State.contents, hc]
  rfl

end Ring

/-- Settles O13: a push with room appends, a pull of an entry takes the first, and the others change nothing. -/
theorem queueOperationsActOnTheListOfEntries : Obligations.QueueOperationsActOnTheListOfEntries := by
  intro d s hi
  constructor
  · split
    · exact contents_push d ‹_›
    · rw [push_of_full d ‹_›]
  · rcases Nat.eq_zero_or_pos s.count with hc | hc
    · rw [pull_of_empty hc]
      exact ⟨contents_empty hc, rfl⟩
    · have h := contents_pull hi.head hc
      rw [pull_of_pos hc] at h ⊢
      exact h

/-! ## The structural invariant

One rule for each way an operation changes the elements the invariant speaks of. -/

namespace State.Inv
variable {s : State} (h : s.Inv)
include h

/-- The control point and the elements the invariant says nothing of. -/
theorem moved {cp held tPinfsel tClkctl tClkdiv inp inPos tr script turn} (hc : cp = .done → s.halt = true) : State.Inv { s with
    cp := cp, held := held, tPinfsel := tPinfsel, tClkctl := tClkctl, tClkdiv := tClkdiv, inp := inp, inPos := inPos, tr := tr
    script := script, turn := turn } :=
  { h with done := hc }

/-- With HALT set any control point will do, DONE too (R97, R130). -/
theorem halted (c : ControlPoint) : State.Inv { s with halt := true, cp := c } :=
  { h with done := fun _ => rfl }

theorem counted {c : Nat} (hc : c < 2 ^ s.par.cw) : State.Inv { s with cnt := c } :=
  { h with cnt := hc }

theorem scheduled {n : Nat} (hn : n < 2 ^ s.par.cw) : State.Inv { s with nd := n } :=
  { h with nd := hn }

theorem raised (f : FaultRecord) : (s.raise f).Inv :=
  { h with faults := s.raise_faults_nodup f h.faults }

theorem offering (d : Word) : State.Inv { s with pend := some d, pcp := .p1 } :=
  { h with pend := by simp }

theorem idle {p : ProducerPoint} (hp : p ≠ .p1) : State.Inv { s with pend := none, pcp := p } :=
  { h with pend := by simpa using hp }

/-- A Producer that offers nothing may go where nothing is offered (R83). -/
theorem parked {p : ProducerPoint} (hs : s.pcp ≠ .p1) (hp : p ≠ .p1) : State.Inv { s with pcp := p } :=
  { h with pend := iff_of_false hp (mt h.pend.2 hs) }

theorem pushed (d : Word) : (push d s).2.Inv := by
  by_cases hc : s.count < s.par.qmax
  · rw [push_of_lt d hc]
    refine { h with queue := Memory.write_wf _ _ h.queue, count := hc, held := fun k hk => ?_ }
    rcases Nat.lt_succ_iff_lt_or_eq.1 hk with hk | rfl
    · exact (congrArg Option.isSome (read_pushed_held d hc hk)).trans (h.held k hk)
    · exact congrArg Option.isSome (read_pushed_last d)
  · rw [push_of_full d hc]
    exact h

theorem pulled : State.Inv { s with head := (s.head + 1) % s.par.qmax, count := s.count - 1 } := by
  refine { h with head := Nat.mod_lt _ (Nat.zero_lt_of_lt h.head), count := (Nat.sub_le _ _).trans h.count, held := fun k hk => ?_ }
  change (Memory.read s.q (((s.head + 1) % s.par.qmax + k) % s.par.qmax)).isSome = true
  rw [ring_index_succ]
  exact h.held _ (Nat.add_lt_of_lt_sub hk)

/-- A sample is taken at P0 only, where PEND is none (R83). -/
theorem sampled (hp : s.pcp ≠ .p1) (v : Int) : (takeSample v s).Inv := by
  rcases takeSample_cases v s with ⟨d, -, ht⟩ | ⟨-, ht⟩ <;> rw [ht]
  · exact h.offering d
  · exact (h.raised _).parked hp nofun

theorem produced {late : Bool} {t : State} (he : exec (.produce late) s = .next t) : t.Inv := by
  rcases exec_produce_cases he with ⟨-, rfl⟩ | ⟨-, -, -, rfl⟩ | ⟨hp, rfl⟩ | ⟨hp, -, -, -, -, rfl⟩ | ⟨hp, -, v, inp, inPos, rfl⟩ |
    ⟨-, d, -, -, rfl⟩ | ⟨-, -, -, rfl⟩ | ⟨-, -, -, rfl⟩
  · exact h
  · exact (h.halted s.cp).idle nofun
  · exact h.parked (by simp [hp]) nofun
  · exact ((h.raised .shortRead).halted s.cp).parked (by simp [hp]) nofun
  · exact State.Inv.sampled (h.moved h.done) (by simp [hp]) v
  · exact (h.pushed d).idle nofun
  · exact h.idle nofun
  · exact h

end State.Inv

/-- Every operation keeps the invariant; a conversion by itself only at P0, where a run makes it (R83). -/
theorem exec_keeps_inv {i : Instr} {s t : State} (h : s.Inv) (he : exec i s = .next t)
    (hp : ∀ v, i = .conv v → s.pcp = .p0) : t.Inv := by
  have two_pow_pos : 0 < 2 ^ s.par.cw := Nat.two_pow_pos _
  cases i with
  | push d => cases he; exact h.pushed d
  | pull =>
    cases he
    rcases Nat.eq_zero_or_pos s.count with hc | hc
    · exact pull_of_empty hc ▸ h
    · exact pull_of_pos hc ▸ h.pulled
  | conv v => cases he; exact h.sampled (by simp [hp v rfl]) v
  | produce late => exact h.produced he
  | wait1 =>
    rcases exec_wait1_cases he with ⟨-, -, rfl⟩ | ⟨-, -, rfl⟩ | ⟨-, -, rfl⟩
    · exact h.moved nofun
    · exact h.pulled.moved nofun
    · exact h.moved nofun
  | rdcnt => cases he; exact (h.scheduled (Nat.mod_lt _ two_pow_pos)).moved nofun
  | waitdl =>
    rcases exec_waitdl_cases he with ⟨-, -, rfl⟩ | ⟨-, -, rfl⟩ | ⟨-, -, rfl⟩
    · exact h.moved nofun
    · exact h.moved nofun
    · exact h.moved (by split <;> nofun)
  | setdiv =>
    rcases exec_setdiv_cases he with ⟨-, rfl⟩ | ⟨-, rfl⟩
    · exact h.moved nofun
    · exact (h.raised _).moved nofun
  | next =>
    rcases exec_next_cases he with ⟨-, rfl⟩ | ⟨-, rfl⟩
    · exact (h.pulled.scheduled (Nat.mod_lt _ two_pow_pos)).moved nofun
    · exact h.moved nofun
  | sethalt => cases he; exact h.halted .done
  | enable =>
    simp only [exec_enable, exec_fselClk, exec_ctlReset, exec_ctlEnable, exec_ctlMode, pinWrite_next, controlWrite_next,
      andThen_next] at he
    cases he
    exact h.moved nofun
  | disable =>
    simp only [exec_disable, exec_ctlOff, exec_fselIn, pinWrite_next, controlWrite_next, andThen_next] at he
    cases he
    exact h.moved nofun
  | fselClk | fselIn | ctlReset | ctlEnable | ctlMode | ctlOff => cases he; exact h.moved nofun
  | haltreq => cases he; exact h.halted s.cp
  | tick => cases he; exact h.counted (Nat.mod_lt _ two_pow_pos)

/-- Settles O44: the operation a step runs keeps the invariant, and no control point selects a conversion. -/
theorem stepKeepsTheStructuralInvariant : Obligations.StepKeepsTheStructuralInvariant := by
  intro s t h hs
  obtain ⟨u, ⟨script, turn, rfl⟩, ht⟩ := step_cases hs
  have hu : State.Inv { s with script := script, turn := turn } := h.moved h.done
  rcases ht with rfl | ⟨i, hi, he⟩ | ⟨d, he⟩ | he | he | ⟨late, he⟩ | ⟨hp, v, -, he⟩
  · exact hu
  · refine exec_keeps_inv hu he fun v hv => ?_
    subst hv
    cases Laws.Selection.point_unique _ _ hi
  · exact exec_keeps_inv hu he nofun
  · exact exec_keeps_inv hu he nofun
  · exact exec_keeps_inv hu he nofun
  · exact exec_keeps_inv hu he nofun
  · exact exec_keeps_inv hu he fun _ _ => hp

/-! ## Reset -/

theorem State.start_isReset (par : Params) (inp : List Byte) (endless : Bool) (cnt : Nat) (pinfsel : Word) (clkctl clkdiv : Word24)
    (script : List Stim) : (State.start par inp endless cnt pinfsel clkctl clkdiv script).IsReset :=
  ⟨rfl, rfl, rfl, rfl, rfl, rfl, rfl, rfl⟩

/-- Settles O1: a start is a reset state, and the other elements are its arguments. -/
theorem resetStatesHoldTheTableValues : Obligations.ResetStatesHoldTheTableValues := by
  intro par inp endless cnt pinfsel clkctl clkdiv script s
  obtain ⟨head, count, cp, halt, pend, pcp, tr, faults⟩ := State.start_isReset par inp endless cnt pinfsel clkctl clkdiv script
  exact ⟨head, count, cp, halt, rfl, rfl, rfl, pend, pcp, tr, faults, rfl, rfl, rfl, rfl⟩

/-- A legal queue has an entry (R7, D7). -/
theorem qmax_pos_of_legal {p : Params} (h : p.legal = true) : 0 < p.qmax := by
  simp only [Params.legal, Bool.and_eq_true, decide_eq_true_eq] at h
  omega

namespace State.IsReset
variable {s : State} (h : s.IsReset)
include h

theorem events : s.events = [] := by rw [State.events, h.tr, List.map_nil]

theorem inv (hl : s.par.legal = true) (hq : Memory.wf s.q) (hc : s.cnt < 2 ^ s.par.cw) (hn : s.nd < 2 ^ s.par.cw) : s.Inv where
  legal := hl
  queue := hq
  head := by rw [h.head]; exact qmax_pos_of_legal hl
  count := by rw [h.count]; exact Nat.zero_le _
  held := fun k hk => absurd hk (by simp [h.count])
  cnt := hc
  nd := hn
  pend := by simp [h.pcp, h.pend]
  faults := by rw [h.faults]; exact List.nodup_nil
  done := fun e => by simp [h.cp] at e

theorem traceLawful : s.TraceLawful := by simp [State.TraceLawful, h.events]

theorem writesInOrder : s.WritesInOrder := by simp [State.WritesInOrder, h.cp, h.events, busWrites]

theorem stopInv : s.StopInv := by simp [State.StopInv, h.cp]

theorem scheduleInv : s.ScheduleInv := by simp [State.ScheduleInv, h.cp, h.events, counterReads, divisorWords]

theorem reachedInv : s.ReachedInv := by simp [State.ReachedInv, h.cp]

theorem timely : s.Timely := by simp [State.Timely, h.events]

end State.IsReset

/-- Settles O2: at W0 with an empty trace each invariant says next to nothing, and the structural one has its bounds from the premises. -/
theorem resetStatesSatisfyTheInvariants : Obligations.ResetStatesSatisfyTheInvariants := by
  have hr : State.reset.IsReset := State.start_isReset _ _ _ _ _ _ _ _
  refine ⟨fun s h hl hq hc hn => ?_, hr, hr.inv (by decide) State.reset_queue_wf (by decide) (by decide)⟩
  exact ⟨h.inv hl hq hc hn, h.traceLawful, h.writesInOrder, h.stopInv, h.scheduleInv, h.reachedInv, h.timely⟩

/-! ## The Producer's step -/

/-- The bytes of a sample where the widths are the source's (R6). -/
theorem sampleBytes_eq {p : Params} (hw : p.sourceWidths = true) : p.sampleBytes = 2 := by
  simp only [Params.sourceWidths, decide_eq_true_eq] at hw
  obtain ⟨-, hb, -⟩ := hw
  exact hb

section Produce
variable {s : State}

theorem exec_produce_of_p0 (hp : s.pcp = .p0) : exec (.produce false) s = .next (produceRead s) := by simp [exec, execProduce, hp]

theorem exec_produce_of_p1 (hp : s.pcp = .p1) : exec (.produce false) s = produceOffer s := by simp [exec, execProduce, hp]

theorem produceRead_of_halt (hh : s.halt = true) : produceRead s = { s with pcp := .pdone } := by simp [produceRead, hh]

theorem produceRead_of_end (hh : s.halt = false) (hr : readSample s = .endOfStream) : produceRead s = { s with pcp := .pdone } := by
  simp [produceRead, hh, hr]

theorem produceRead_of_part (hh : s.halt = false) (hr : readSample s = .partOfSample) :
    produceRead s = { s.raise .shortRead with halt := true, pcp := .pdone } := by
  simp [produceRead, hh, hr]

theorem produceRead_of_sample {v : Int} {r : State} (hh : s.halt = false) (hr : readSample s = .sample v r) :
    produceRead s = takeSample v r := by
  simp [produceRead, hh, hr]

theorem takeSample_of_some {v : Int} {d : Word} (hc : convert s.par v = some d) :
    takeSample v s = { s with pend := some d, pcp := .p1 } := by
  simp [takeSample, hc]

theorem takeSample_of_none {v : Int} (hc : convert s.par v = none) :
    takeSample v s = { s.raise (.convRange v) with pcp := .pdone } := by
  simp [takeSample, hc]

/-- Reading a sample of two bytes: both listed, one listed, none listed (R64, R83; log 13). -/
theorem readSample_pair (hw : s.par.sourceWidths = true) {b0 b1 : Byte} {rest : List Byte} (hi : s.inp = b0 :: b1 :: rest) :
    readSample s = .sample (sampleOf s.par [b0, b1]) { s with inp := rest } := by
  rw [readSample_whole (by simp [sampleBytes_eq hw, hi]), sampleBytes_eq hw, hi]
  rfl

theorem readSample_endless_one (hw : s.par.sourceWidths = true) {b : Byte} (hi : s.inp = [b]) (he : s.inEndless = true) :
    readSample s = .sample (sampleOf s.par [b, Config.streamByte s.inPos]) { s with inp := [], inPos := s.inPos + 1 } := by
  rw [readSample_endless (by simp [sampleBytes_eq hw, hi]) he, sampleBytes_eq hw, hi]
  rfl

theorem readSample_endless_none (hw : s.par.sourceWidths = true) (hi : s.inp = []) (he : s.inEndless = true) :
    readSample s = .sample (sampleOf s.par [Config.streamByte s.inPos, Config.streamByte (s.inPos + 1)])
      { s with inPos := s.inPos + 2 } := by
  rw [readSample_endless (by simp [sampleBytes_eq hw, hi]) he, sampleBytes_eq hw, hi]
  rfl

theorem produceOffer_of_room {d : Word} (hd : s.pend = some d) (hc : s.count < s.par.qmax) :
    produceOffer s = .next { s with q := Memory.write s.q s.pushIndex d, count := s.count + 1, pend := none, pcp := .p0 } := by
  simp [produceOffer, hd, push_of_lt d hc]

theorem produceOffer_of_full {d : Word} (hd : s.pend = some d) (hc : ¬ s.count < s.par.qmax) :
    produceOffer s = .next (if s.halt then { s with pend := none, pcp := .pdone } else { s with pcp := .p1 }) := by
  simp [produceOffer, hd, push_of_full d hc]

end Produce

/-- Settles O22: the reads of the stream at P0, then the push at P1. -/
theorem produceTakesTheStepOfItsControlPoint : Obligations.ProduceTakesTheStepOfItsControlPoint := by
  intro s hw
  refine ⟨fun hp hh => ?_, fun hp hh hi he => ?_, fun b hp hh hi he => ?_, fun b0 b1 rest d hp hh hi hc => ?_,
    fun b0 b1 rest hp hh hi hc => ?_, fun hp hh he hi => ?_, fun b hp hh he hi => ?_, fun d hp hd hc => ?_, fun d hp hd hc hh => ?_,
    fun d hp hd hc hh => ?_⟩
  · rw [exec_produce_of_p0 hp, produceRead_of_halt hh]
  · rw [exec_produce_of_p0 hp, produceRead_of_end hh (readSample_end (by simp [sampleBytes_eq hw]) hi he)]
  · have hr : readSample s = .partOfSample := readSample_part (by simp [sampleBytes_eq hw, hi]) (by simp [hi]) he
    rw [exec_produce_of_p0 hp, produceRead_of_part hh hr]
    exact ⟨_, rfl, rfl, s.mem_raise_faults .shortRead⟩
  · rw [exec_produce_of_p0 hp, produceRead_of_sample hh (readSample_pair hw hi)]
    exact congrArg Host.Outcome.next (takeSample_of_some hc)
  · rw [exec_produce_of_p0 hp, produceRead_of_sample hh (readSample_pair hw hi)]
    exact ⟨_, congrArg Host.Outcome.next (takeSample_of_none hc), rfl, State.mem_raise_faults _ _⟩
  · rw [exec_produce_of_p0 hp, produceRead_of_sample hh (readSample_endless_none hw hi he), exec_conv]
  · rw [exec_produce_of_p0 hp, produceRead_of_sample hh (readSample_endless_one hw hi he), exec_conv]
  · rw [exec_produce_of_p1 hp, produceOffer_of_room hd hc]
    rfl
  · rw [exec_produce_of_p1 hp, produceOffer_of_full hd hc, if_pos hh]
  · rw [exec_produce_of_p1 hp, produceOffer_of_full hd hc, if_neg (by simp [hh]), ← hp]

end Sys2Proof.Machine
end

section
/-! PROOFS. The memory family (spec/20_memory.md): what a step appends to the trace and where it leaves `cp` (R42, R90), the lawful trace (R33,
R56, R61), the order of the writes (R110, R116, R163), the deadline test (R40), that the machine never stops (R44, R120), the way from a set
HALT to DONE (R43, R102), the rejected words (R61), the bus primitives (R33, R34), and what a step runs (R50). -/

namespace Sys2Proof.Machine

/-! ## What the Sequencer's step does on the bus -/

/-- The Sequencer's step at a control point, as the bus sees it: the events it appends and the control point it leaves. `halted` says that a
set HALT comes before data and deadline (R145): then W0 and S0 have the stop alone. -/
inductive SeqStep (p : Params) (halted : Bool) : ControlPoint → List BusEvent → ControlPoint → Prop
  | waiting (hh : halted = false) : SeqStep p halted .w0 [] .w0
  | fetched (hh : halted = false) : SeqStep p halted .w0 [] .e1
  | stopped {c} (hc : c ∈ [.w0, .s0, .s1, .s2]) : SeqStep p halted c [] .x1
  | fselClk (old : Word) : SeqStep p halted .e1 [.rd .pinfsel old, .wr .pinfsel (fselWord p old p.fselClk)] .e2
  | ctlReset : SeqStep p halted .e2 [.wr .clkctl (wReset p)] .e3
  | ctlEnable : SeqStep p halted .e3 [.wr .clkctl (wEnable p)] .e4
  | ctlMode : SeqStep p halted .e4 [.wr .clkctl (wMode p)] .e5
  | rdcnt (v : Word) : SeqStep p halted .e5 [.rd .counter v] .s0
  | waitdl {c} (v : Word) (hh : halted = false) (hc : c ∈ [.s0, .s1, .x1]) : SeqStep p halted .s0 [.rd .counter v] c
  | setdiv (d : Word) : SeqStep p halted .s1 [.wr .clkdiv (divWord p d)] .s2
  | next : SeqStep p halted .s2 [] .s0
  | ctlOff : SeqStep p halted .x1 [.wr .clkctl (wOff p)] .x2
  | fselIn (old : Word) : SeqStep p halted .x2 [.rd .pinfsel old, .wr .pinfsel (fselWord p old Sys2Proof.fselIn)] .x3
  | sethalt : SeqStep p halted .x3 [] .done

/-- A set HALT that the waiting steps see before data and deadline (R8, R145). -/
def State.haltSeen (s : State) : Bool := s.par.haltFirst && s.halt

section Steps
variable {s t : State}

/-- The operation of a control point makes the step of that control point. -/
theorem exec_seqStep {i : Instr} (hi : decodePoint s.cp = .ok i) (h : exec i s = .next t) :
    ∃ es, SeqStep s.par s.haltSeen s.cp es t.cp ∧ t.tr = s.tr ++ s.stamped es := by
  have quiet : s.tr = s.tr ++ s.stamped [] := (List.append_nil _).symm
  generalize hc : s.cp = c at hi
  cases c <;> cases hi
  case w0 =>
    rcases exec_wait1_cases h with ⟨-, -, rfl⟩ | ⟨-, hh, rfl⟩ | ⟨hh, -, rfl⟩
    · exact ⟨_, .stopped (by decide), quiet⟩
    · exact ⟨_, .fetched hh, quiet⟩
    · exact ⟨_, .waiting (by simp [State.haltSeen, hh]), quiet⟩
  case s0 =>
    rcases exec_waitdl_cases h with ⟨-, -, rfl⟩ | ⟨hh, -, rfl⟩ | ⟨hh, -, rfl⟩
    · exact ⟨_, .stopped (by decide), quiet⟩
    · exact ⟨_, .waitdl _ hh (by simp), rfl⟩
    · exact ⟨_, .waitdl _ hh (by dsimp only; split <;> decide), rfl⟩
  case s1 =>
    rcases exec_setdiv_cases h with ⟨-, rfl⟩ | ⟨-, rfl⟩
    · exact ⟨_, .setdiv _, rfl⟩
    · exact ⟨_, .stopped (by decide), quiet⟩
  case s2 =>
    rcases exec_next_cases h with ⟨-, rfl⟩ | ⟨-, rfl⟩
    · exact ⟨_, .next, quiet⟩
    · exact ⟨_, .stopped (by decide), quiet⟩
  case e1 => rw [exec_fselClk, pinWrite_next] at h; cases h; exact ⟨_, .fselClk _, rfl⟩
  case e2 => cases h; exact ⟨_, .ctlReset, rfl⟩
  case e3 => cases h; exact ⟨_, .ctlEnable, rfl⟩
  case e4 => cases h; exact ⟨_, .ctlMode, rfl⟩
  case e5 => cases h; exact ⟨_, .rdcnt _, rfl⟩
  case x1 => cases h; exact ⟨_, .ctlOff, rfl⟩
  case x2 => rw [exec_fselIn, pinWrite_next] at h; cases h; exact ⟨_, .fselIn _, rfl⟩
  case x3 => cases h; exact ⟨_, .sethalt, quiet⟩

/-- A step leaves `cp` and the trace, or is the Sequencer's. -/
theorem step_seqStep (h : step s = .next t) :
    (t.cp = s.cp ∧ t.events = s.events) ∨
      ∃ es, SeqStep s.par s.haltSeen s.cp es t.cp ∧ t.events = s.events ++ es := by
  obtain ⟨u, ⟨script, turn, rfl⟩, rfl | ⟨i, hi, h⟩ | ⟨d, h⟩ | h | h | ⟨late, h⟩ | ⟨-, v, -, h⟩⟩ := step_cases h
  · exact .inl ⟨rfl, rfl⟩
  · obtain ⟨es, hs, he⟩ := exec_seqStep hi h
    exact .inr ⟨es, hs, State.events_of_tr_append he⟩
  all_goals
    cases exec_frame h
    exact .inl ⟨rfl, rfl⟩

end Steps

/-! ## The lawful trace -/

/-- A PINFSEL word the block writes has its function in the target field (R54). -/
theorem pinField_fselWord_of_legal {p : Params} (hp : p.legal = true) (old : Word) (f : PinFunction) :
    pinField p (fselWord p old f) = f :=
  pinField_fselWord p old f (fselw_eq (sourceWidths_of_legal hp)) (pinShift_le_of_legal hp)

/-- Every event of the Sequencer's step is one the rules produce (R33, R56, R61). -/
theorem SeqStep.lawful {p : Params} {halted : Bool} {c c' : ControlPoint} {es : List BusEvent} (hp : p.legal = true)
    (h : SeqStep p halted c es c') : ∀ e ∈ es, e.lawful p := by
  cases h with
  | waiting | fetched | stopped | next | sethalt => simp
  | fselClk old | fselIn old => simp [BusEvent.lawful, pinField_fselWord_of_legal hp]
  | ctlReset | ctlEnable | ctlMode | ctlOff => simp [BusEvent.lawful]
  | rdcnt v | waitdl v => simp [BusEvent.lawful]
  | setdiv d => simp [BusEvent.lawful, tagOf_divWord (sourceWidths_of_legal hp)]

/-- Settles O52: the events a step appends are lawful, and the others were. -/
theorem stepKeepsTheTraceLawful : Obligations.StepKeepsTheTraceLawful := by
  intro s t hp hs h e he
  rw [(step_grows h).par]
  rcases step_seqStep h with ⟨-, hev⟩ | ⟨es, hb, hev⟩ <;> rw [hev] at he
  · exact hs e he
  · exact (List.mem_append.1 he).elim (hs e) (hb.lawful hp e)

/-! ## The order of the writes -/

/-- The writes of a run that stops, `tail` being those of its stop sequence so far: `tail` alone, or behind the whole of ENABLE's writes and
some divisors (R110, R116, R163). -/
def stoppedWrites (p : Params) (ws tail : List (Reg × Word)) : Prop :=
  ws = tail ∨ ∃ run ds, streamWrites p 4 run ds ∧ ws = run ++ tail

/-- The order of the writes `ws` as far as the control point has come. -/
def writesInOrderAt (p : Params) (ws : List (Reg × Word)) : ControlPoint → Prop
  | .w0 | .e1 => ws = []
  | .e2 => streamWrites p 1 ws []
  | .e3 => streamWrites p 2 ws []
  | .e4 => streamWrites p 3 ws []
  | .e5 => streamWrites p 4 ws []
  | .s0 | .s1 | .s2 => ∃ ds, streamWrites p 4 ws ds
  | .x1 => stoppedWrites p ws []
  | .x2 => stoppedWrites p ws [(.clkctl, wOff p)]
  | .x3 | .done => ∃ v, pinField p v = fselIn ∧ stoppedWrites p ws [(.clkctl, wOff p), (.pinfsel, v)]

theorem State.writesInOrder_iff (s : State) : s.WritesInOrder ↔ writesInOrderAt s.par (busWrites s.events) s.cp := by
  unfold State.WritesInOrder writesInOrderAt
  cases s.cp <;> exact Iff.rfl

section Writes
variable {p : Params} {ws tail : List (Reg × Word)}

/-- The next of ENABLE's writes (R110). -/
theorem streamWrites.enable {n : Nat} {w : Reg × Word} (h : streamWrites p n ws [])
    (hw : ∀ v, (enableWrites p v).take (n + 1) = (enableWrites p v).take n ++ [w]) : streamWrites p (n + 1) (ws ++ [w]) [] := by
  obtain ⟨v, hv, rfl⟩ := h
  exact ⟨v, hv, by simp [hw]⟩

/-- The next divisor write (R115). -/
theorem streamWrites.divisor {ds : List Word} (h : streamWrites p 4 ws ds) (d : Word) :
    streamWrites p 4 (ws ++ [(.clkdiv, d)]) (ds ++ [d]) := by
  obtain ⟨v, hv, rfl⟩ := h
  exact ⟨v, hv, by simp⟩

/-- The stop sequence goes on (R116). -/
theorem stoppedWrites.append (h : stoppedWrites p ws tail) (more : List (Reg × Word)) :
    stoppedWrites p (ws ++ more) (tail ++ more) := by
  rcases h with rfl | ⟨run, ds, hr, rfl⟩
  · exact .inl rfl
  · exact .inr ⟨run, ds, hr, by simp⟩

/-- A run stops before ENABLE or while it streams, and in both cases the stop sequence has written nothing yet (R146). -/
theorem stoppedWrites_of_stop {c : ControlPoint} (hc : c ∈ [.w0, .s0, .s1, .s2]) (h : writesInOrderAt p ws c) :
    stoppedWrites p ws [] := by
  have streaming : (∃ ds, streamWrites p 4 ws ds) → stoppedWrites p ws [] := fun ⟨ds, hd⟩ => .inr ⟨ws, ds, hd, by simp⟩
  simp only [List.mem_cons, List.not_mem_nil, or_false] at hc
  rcases hc with rfl | rfl | rfl | rfl
  · exact .inl h
  · exact streaming h
  · exact streaming h
  · exact streaming h

/-- The Sequencer's step keeps the order of the writes. -/
theorem SeqStep.keeps_order {halted : Bool} {c c' : ControlPoint} {es : List BusEvent} (hp : p.legal = true)
    (hs : SeqStep p halted c es c') (h : writesInOrderAt p ws c) : writesInOrderAt p (ws ++ busWrites es) c' := by
  have quiet {c} (h : writesInOrderAt p ws c) : writesInOrderAt p (ws ++ []) c := by rwa [List.append_nil]
  cases hs with
  | waiting | fetched | next | sethalt => exact quiet h
  | stopped hc => exact quiet (c := .x1) (stoppedWrites_of_stop hc h)
  | fselClk old => exact ⟨_, pinField_fselWord_of_legal hp old _, congrArg (· ++ _) h⟩
  | ctlReset => exact h.enable fun _ => rfl
  | ctlEnable => exact h.enable fun _ => rfl
  | ctlMode => exact h.enable fun _ => rfl
  | rdcnt v => exact ⟨[], quiet (c := .e5) h⟩
  | waitdl v hh hc =>
    simp only [List.mem_cons, List.not_mem_nil, or_false] at hc
    rcases hc with rfl | rfl | rfl
    · exact quiet h
    · exact quiet h
    · exact quiet (c := .x1) (stoppedWrites_of_stop (c := .s0) (by decide) h)
  | setdiv d =>
    obtain ⟨ds, hd⟩ := h
    exact ⟨_, hd.divisor _⟩
  | ctlOff => exact h.append _
  | fselIn old => exact ⟨_, pinField_fselWord_of_legal hp old _, h.append _⟩

end Writes

/-- Settles O53: the writes a step appends are those the order has next. -/
theorem writesStayInTheRequiredOrder : Obligations.WritesStayInTheRequiredOrder := by
  intro s t hp hs h
  rw [State.writesInOrder_iff] at hs ⊢
  rw [(step_grows h).par]
  rcases step_seqStep h with ⟨hc, he⟩ | ⟨es, hb, he⟩
  · rwa [hc, he]
  · rw [he, busWrites_append]
    exact hb.keeps_order hp hs

/-! ## The deadline test -/

section Deadline
variable {cw c nd : Nat}

/-- The difference without a remainder: forward from the deadline, around the turn where the counter has wrapped (R40). -/
theorem ticksPast_eq (hc : c < 2 ^ cw) (hn : nd < 2 ^ cw) : ticksPast cw c nd = if nd ≤ c then c - nd else c + 2 ^ cw - nd := by
  have hcast : ((2 ^ cw : Nat) : Int) = 2 ^ cw := by simp
  rw [ticksPast, ← hcast]
  generalize 2 ^ cw = turn at *
  split
  · rw [Int.emod_eq_of_lt] <;> omega
  · rw [← Int.add_emod_right, Int.emod_eq_of_lt] <;> omega

theorem ticksPast_lt (hc : c < 2 ^ cw) (hn : nd < 2 ^ cw) : ticksPast cw c nd < 2 ^ cw := by
  rw [ticksPast_eq hc hn]
  split <;> omega

/-- The ticks past `nd` are the way from `nd` forward to `c`. -/
theorem ticksPast_eq_iff (hc : c < 2 ^ cw) (hn : nd < 2 ^ cw) {k : Nat} (hk : k < 2 ^ cw) :
    ticksPast cw c nd = k ↔ c = (nd + k) % 2 ^ cw := by
  rw [ticksPast_eq hc hn]
  generalize 2 ^ cw = turn at *
  rcases Nat.lt_or_ge (nd + k) turn with h | h
  · rw [Nat.mod_eq_of_lt h]
    split <;> omega
  · rw [Nat.mod_eq_sub_mod h, Nat.mod_eq_of_lt (by omega)]
    split <;> omega

/-- The way back is the rest of the turn. -/
theorem ticksPast_swap (hc : c < 2 ^ cw) (hn : nd < 2 ^ cw) :
    ticksPast cw nd c = if ticksPast cw c nd = 0 then 0 else 2 ^ cw - ticksPast cw c nd := by
  rw [ticksPast_eq hc hn, ticksPast_eq hn hc]
  split_ifs <;> omega

/-- A word's signed value is not negative exactly in the lower half. -/
theorem sint_nonneg_iff {n v : Nat} (hv : v < 2 ^ n) : 0 ≤ sint n v ↔ v < 2 ^ (n - 1) := by
  have hcast : ((2 ^ n : Nat) : Int) = 2 ^ n := by simp
  rw [sint, ← hcast]
  split <;> omega

theorem reached_iff (hc : c < 2 ^ cw) (hn : nd < 2 ^ cw) : reached cw c nd = true ↔ ticksPast cw c nd < 2 ^ (cw - 1) := by
  rw [reached, decide_eq_true_eq, sint_nonneg_iff (ticksPast_lt hc hn)]

/-- The top bit of a word is 0 exactly in the lower half. -/
theorem testBit_top_eq_false_iff {v : Nat} (hw : 1 ≤ cw) (hv : v < 2 ^ cw) : v.testBit (cw - 1) = false ↔ v < 2 ^ (cw - 1) := by
  refine ⟨fun h => Nat.lt_of_not_le fun hle => ?_, Nat.testBit_lt_two_pow⟩
  have htop := Nat.testBit_of_two_pow_le_and_two_pow_add_one_gt hle (by rwa [Nat.sub_add_cancel hw])
  exact Bool.false_ne_true (h.symm.trans htop)

end Deadline

/-- Settles O10: the difference is below half a turn, or the way back is at most half a turn. -/
theorem deadlineReachedExactlyWithinHalfATurnPast : Obligations.DeadlineReachedExactlyWithinHalfATurnPast := by
  intro cw c nd hw hc hn
  have hlt := ticksPast_lt hc hn
  have hhalf := Nat.two_pow_pred_mul_two hw
  have hway : c = (nd + ticksPast cw c nd) % 2 ^ cw := (ticksPast_eq_iff hc hn hlt).1 rfl
  refine ⟨decide_eq_true_iff, ?_, by rw [Nat.add_comm, ← hway], ?_, ?_, ?_⟩
  · rw [reached_iff hc hn, testBit_top_eq_false_iff hw hlt]
  · rw [reached_iff hc hn]
    refine ⟨fun h => ⟨_, h, hway⟩, fun ⟨k, hk, h⟩ => ?_⟩
    rwa [(ticksPast_eq_iff hc hn (by omega)).2 h]
  · rw [Bool.eq_false_iff, ne_eq, reached_iff hc hn]
    have hback := ticksPast_swap hc hn
    refine ⟨fun h => ⟨ticksPast cw nd c, ?_, ?_, (ticksPast_eq_iff hn hc (ticksPast_lt hn hc)).1 rfl⟩, fun ⟨k, h1, hk, h⟩ => ?_⟩
    · split at hback <;> omega
    · split at hback <;> omega
    · rw [(ticksPast_eq_iff hn hc (by omega)).2 h] at hback
      split at hback <;> omega
  · rw [reached_iff hc hc, ticksPast_eq hc hc, if_pos le_rfl, Nat.sub_self]
    exact Nat.two_pow_pos _

/-! ## Every operation completes -/

section Completes
variable {s : State}

theorem produceOffer_completes (hp : s.pend.isSome = true) : ∃ t, produceOffer s = .next t := by
  obtain ⟨d, hd⟩ := Option.isSome_iff_exists.1 hp
  by_cases hc : s.count < s.par.qmax
  · exact ⟨_, produceOffer_of_room hd hc⟩
  · exact ⟨_, produceOffer_of_full hd hc⟩

theorem execProduce_completes (late : Bool) (hp : s.pcp = .p1 → s.pend.isSome = true) : ∃ t, execProduce late s = .next t := by
  unfold execProduce
  split
  · exact ⟨_, rfl⟩
  · split <;> exact ⟨_, rfl⟩
  · split
    · exact ⟨_, rfl⟩
    · exact produceOffer_completes (hp ‹_›)

theorem exec_wait1_completes : ∃ t, exec .wait1 s = .next t := by
  cases hh : s.par.haltFirst && s.halt with
  | true => exact ⟨s.enterStop, by simp [exec, execWait1, hh]⟩
  | false =>
    rcases Nat.eq_zero_or_pos s.count with hc | hc
    · exact ⟨_, exec_wait1_of_empty hh hc⟩
    · exact ⟨_, exec_wait1_of_pos hh hc⟩

theorem exec_waitdl_completes : ∃ t, exec .waitdl s = .next t := by
  cases hh : s.par.haltFirst && s.halt with
  | true => exact ⟨s.enterStop, by simp [exec, execWaitdl, hh]⟩
  | false => exact ⟨_, exec_waitdl_of_read hh⟩

theorem exec_setdiv_completes : ∃ t, exec .setdiv s = .next t := by
  simp only [exec, execSetdiv, memWrite_clkdiv, afterBus_ok]
  split <;> exact ⟨_, rfl⟩

theorem exec_next_completes : ∃ t, exec .next s = .next t := by
  simp only [exec, execNext]
  split <;> exact ⟨_, rfl⟩

/-- Every operation answers a next state; PRODUCE at P1 needs the divisor it offers (R83; log 15). -/
theorem exec_completes {i : Instr} (hp : ∀ late, i = .produce late → s.pcp = .p1 → s.pend.isSome = true) : ∃ t, exec i s = .next t := by
  cases i with
  | produce late => exact execProduce_completes late (hp late rfl)
  | wait1 => exact exec_wait1_completes
  | waitdl => exact exec_waitdl_completes
  | setdiv => exact exec_setdiv_completes
  | next => exact exec_next_completes
  | push | pull | conv | rdcnt | sethalt | haltreq | tick => exact ⟨_, rfl⟩
  | enable | disable | fselClk | fselIn | ctlReset | ctlEnable | ctlMode | ctlOff => exact ⟨_, rfl⟩

theorem perform_completes (sel : Option Selector) (hp : s.pcp = .p1 → s.pend.isSome = true) : ∃ t, perform sel s = .next t := by
  unfold perform
  split
  · exact ⟨_, rfl⟩
  · split
    · exact ⟨_, rfl⟩
    · exact exec_completes fun _ _ => hp

/-- The Sequencer's turn completes in every state: none of its operations is the Producer's. -/
theorem takeTurn_sequencer_completes (s : State) : ∃ t, takeTurn .sequencer s = .next t := by
  rw [takeTurn_sequencer]
  split
  · exact exec_completes fun late hi => by subst hi; cases Laws.Selection.point_unique _ _ ‹_›
  · exact ⟨_, rfl⟩

end Completes

/-- Settles O43: the structural invariant's clause on PEND is all PRODUCE needs. -/
theorem everyOperationCompletes : Obligations.EveryOperationCompletes :=
  fun _ _ hp => exec_completes fun _ _ => hp

/-- Settles O45: fetching leaves PEND and `pcp` as the invariant has them. -/
theorem theMachineNeverStops : Obligations.TheMachineNeverStops := by
  intro s hi
  obtain ⟨script, turn, hf⟩ := fetch_frame s
  exact perform_completes _ (by rw [hf]; exact hi.pend.1)

/-! ## From a set HALT to DONE -/

section Turns
variable {s t : State} {w : Turn}

/-- The Producer's control points select PRODUCE alone (R50, R84). -/
theorem eq_produce_of_prodAt {p : Params} {c : ProducerPoint} {late : Bool} {i : Instr}
    (h : decodeSelector p (.prodAt c late) = .ok i) : i = .produce late := by
  cases c <;> cases h <;> rfl

/-- The one control point that selects no operation (R98). -/
theorem eq_done_of_decodePoint_error {c : ControlPoint} {r : DecodeReject} (h : decodePoint c = .error r) : c = .done := by
  cases c <;> cases h
  rfl

theorem takeTurn_sequencer_of_done (hc : s.cp = .done) : takeTurn .sequencer s = .next s := by
  simp only [takeTurn_sequencer, hc, decodePoint]

/-- A turn selects no conversion: a sample is a script's (R63). -/
theorem turnSelector_ne_conv (v : Int) : decodeSelector s.par (turnSelector s w) ≠ .ok (.conv v) := by
  cases w with
  | sequencer => exact fun h => nomatch Laws.Selection.point_unique _ _ h
  | producer | producerTimeout => exact fun h => nomatch eq_produce_of_prodAt h
  | counter | haltSource => exact nofun

theorem takeTurn_completes (h : s.Inv) (w : Turn) : ∃ t, takeTurn w s = .next t :=
  perform_completes _ h.pend.1

theorem takeTurn_keeps_inv (hi : s.Inv) (h : takeTurn w s = .next t) : t.Inv := by
  rcases perform_cases h with rfl | ⟨x, i, hx, hd, he⟩
  · exact hi
  · cases hx
    exact exec_keeps_inv hi he fun v hv => absurd (hv ▸ hd) (turnSelector_ne_conv v)

theorem takeTurn_grows (h : takeTurn w s = .next t) : s.Grows t := by
  rcases perform_cases h with rfl | ⟨_, _, _, _, he⟩
  · exact ⟨rfl, List.prefix_rfl, List.Subset.refl _, id⟩
  · exact exec_grows he

/-- The other agents have neither `cp` nor the bus (R42, R121). -/
theorem takeTurn_other (hw : w ≠ .sequencer) (h : takeTurn w s = .next t) : t.cp = s.cp ∧ t.events = s.events := by
  rcases perform_cases h with rfl | ⟨x, i, hx, hd, he⟩
  · exact ⟨rfl, rfl⟩
  cases hx
  cases w with
  | sequencer => exact absurd rfl hw
  | producer | producerTimeout =>
    obtain rfl := eq_produce_of_prodAt hd
    cases exec_frame he
    exact ⟨rfl, rfl⟩
  | counter | haltSource =>
    cases hd
    cases exec_frame he
    exact ⟨rfl, rfl⟩

/-- The Sequencer's turn away from DONE is the step of its control point. -/
theorem takeTurn_seqStep (hc : s.cp ≠ .done) (h : takeTurn .sequencer s = .next t) :
    ∃ es, SeqStep s.par s.haltSeen s.cp es t.cp ∧ t.events = s.events ++ es := by
  rw [takeTurn_sequencer] at h
  split at h
  · obtain ⟨es, hs, he⟩ := exec_seqStep ‹_› h
    exact ⟨es, hs, State.events_of_tr_append he⟩
  · exact absurd (eq_done_of_decodePoint_error ‹_›) hc

end Turns

/-- The divisor writes still to come once HALT is seen: the one SETDIV is about to make (R102). -/
def writesToCome (c : ControlPoint) : Nat := if c = .s1 then 1 else 0

/-- With HALT seen each step of the Sequencer is one on the way to DONE, and makes no divisor write but the one of S1 (R102). -/
theorem SeqStep.winds_down {p : Params} {c c' : ControlPoint} {es : List BusEvent} (h : SeqStep p true c es c') :
    stepsToDone c' + 1 ≤ stepsToDone c ∧ (divisorWords es).length + writesToCome c' ≤ writesToCome c := by
  cases h with
  | waiting hh | fetched hh | waitdl v hh => cases hh
  | stopped hc =>
    simp only [List.mem_cons, List.not_mem_nil, or_false] at hc
    rcases hc with rfl | rfl | rfl | rfl <;> decide
  | fselClk | ctlReset | ctlEnable | ctlMode | rdcnt | setdiv | next | ctlOff | fselIn | sethalt =>
    exact ⟨by decide, Nat.le_refl _⟩

/-- The way of a run from a state `s` with HALT set, after `k` turns of the Sequencer. -/
structure WindsDown (s : State) (k : Nat) (t : State) : Prop where
  inv : t.Inv
  seen : t.haltSeen = true
  steps : stepsToDone t.cp ≤ stepsToDone s.cp - k
  writes : t.written.length + writesToCome t.cp ≤ s.written.length + writesToCome s.cp

theorem State.Grows.haltSeen {s t : State} (h : s.Grows t) (hs : s.haltSeen = true) : t.haltSeen = true := by
  simp only [State.haltSeen, Bool.and_eq_true] at hs ⊢
  exact ⟨h.par ▸ hs.1, h.halt hs.2⟩

theorem State.written_length_append {s t : State} {es : List BusEvent} (h : t.events = s.events ++ es) :
    t.written.length = s.written.length + (divisorWords es).length := by
  simp [State.written, h, divisorWords_append]

theorem stepsToDone_eq_zero_iff (c : ControlPoint) : stepsToDone c = 0 ↔ c = .done := by cases c <;> decide

theorem stepsToDone_le_nine (c : ControlPoint) : stepsToDone c ≤ 9 := by cases c <;> decide

/-- With HALT seen a turn of the Sequencer is one step on the way, and a turn of another agent leaves the way as it is. -/
theorem takeTurn_winds_down {s t : State} {w : Turn} (hs : s.haltSeen = true) (h : takeTurn w s = .next t) :
    stepsToDone t.cp ≤ stepsToDone s.cp - (if w = .sequencer then 1 else 0) ∧
      t.written.length + writesToCome t.cp ≤ s.written.length + writesToCome s.cp := by
  by_cases hw : w = .sequencer
  · subst hw
    rw [if_pos rfl]
    by_cases hc : s.cp = .done
    · cases (takeTurn_sequencer_of_done hc).symm.trans h
      exact ⟨by simp [hc, stepsToDone], Nat.le_refl _⟩
    · obtain ⟨es, hstep, he⟩ := takeTurn_seqStep hc h
      obtain ⟨hsteps, hwrites⟩ := SeqStep.winds_down (hs ▸ hstep)
      rw [State.written_length_append he]
      omega
  · obtain ⟨hc, he⟩ := takeTurn_other hw h
    have hwritten : t.written = s.written := congrArg (fun es => (divisorWords es).map divField) he
    rw [if_neg hw, hc, hwritten]
    exact ⟨Nat.le_refl _, Nat.le_refl _⟩

/-- One more turn of the schedule. -/
theorem WindsDown.turn {s t u : State} {k : Nat} {w : Turn} (h : WindsDown s k t) (hu : takeTurn w t = .next u) :
    WindsDown s (k + if w = .sequencer then 1 else 0) u := by
  obtain ⟨inv, seen, steps, writes⟩ := h
  obtain ⟨hsteps, hwrites⟩ := takeTurn_winds_down seen hu
  exact ⟨takeTurn_keeps_inv inv hu, (takeTurn_grows hu).haltSeen seen, by omega, by omega⟩

theorem turnsOf_succ (schedule : Nat → Turn) (w : Turn) (n : Nat) :
    turnsOf schedule w (n + 1) = turnsOf schedule w n + if schedule n = w then 1 else 0 := by
  by_cases h : schedule n = w <;> simp [turnsOf, List.range_succ, h]

/-- A run one turn longer takes that turn last. -/
theorem runUnder_snoc (schedule : Nat → Turn) (k n : Nat) (s : State) :
    runUnder schedule k (n + 1) s = andThen (runUnder schedule k n s) (takeTurn (schedule (k + n))) := by
  induction n generalizing k s with
  | zero => rw [runUnder_succ]; cases h : takeTurn (schedule k) s <;> simp [runUnder, andThen, h]
  | succ n ih =>
    rw [runUnder_succ, runUnder_succ schedule k n]
    cases takeTurn (schedule k) s with
    | next t => rw [andThen_next, andThen_next, ih, Nat.add_right_comm, Nat.add_assoc]
    | fault | refused => rfl

/-- Under every schedule a run from a state with HALT set winds down by the Sequencer's turns (R43, R102). -/
theorem runUnder_winds_down (schedule : Nat → Turn) {s : State} (hi : s.Inv) (hs : s.haltSeen = true) (n : Nat) :
    ∃ t, runUnder schedule 0 n s = .next t ∧ WindsDown s (turnsOf schedule .sequencer n) t := by
  induction n with
  | zero => exact ⟨s, rfl, hi, hs, Nat.le_refl _, Nat.le_refl _⟩
  | succ n ih =>
    obtain ⟨t, ht, h⟩ := ih
    obtain ⟨u, hu⟩ := takeTurn_completes h.inv (schedule n)
    refine ⟨u, ?_, turnsOf_succ schedule .sequencer n ▸ h.turn hu⟩
    rw [runUnder_snoc, ht, andThen_next, Nat.zero_add, hu]

/-- Settles O58: after as many of the Sequencer's turns as the way is long nothing of it is left. -/
theorem nineStepsFromHaltToDone : Obligations.NineStepsFromHaltToDone := by
  intro s hi hh hf
  refine ⟨stepsToDone_le_nine s.cp, fun schedule n hn => ?_⟩
  obtain ⟨t, ht, h⟩ := runUnder_winds_down schedule hi (by simp [State.haltSeen, hf, hh]) n
  have hone : writesToCome s.cp ≤ 1 := by unfold writesToCome; split <;> decide
  have hsteps := h.steps
  have hwrites := h.writes
  exact ⟨t, ht, (stepsToDone_eq_zero_iff _).1 (by omega), by omega⟩

/-! ## The rejected words -/

/-- Settles O6: each clause is the test of its register that comes before every other (R61). -/
theorem wordsNoRuleProducesAreRejected : Obligations.WordsNoRuleProducesAreRejected := by
  intro p w
  refine ⟨rfl, fun ht => ⟨if_pos ht, if_pos ht⟩, fun ht hw => ?_, fun hc hi => ?_⟩
  · simp only [List.mem_cons, List.not_mem_nil, or_false, not_or] at hw
    obtain ⟨hreset, henable, hmode, hoff⟩ := hw
    simp [decodeWrite, ht, hreset, henable, hmode, hoff]
  · simp [decodeWrite, hc, hi]

/-! ## The bus primitives -/

/-- The tag and the low bits of a word where the widths are the source's (R6, R52, R53). -/
theorem tagOf_eq_extract {p : Params} (hw : p.sourceWidths = true) (v : Word) : tagOf p v = v.extractLsb' 24 8 := by
  obtain ⟨hlo, hn⟩ := tag_place hw
  apply BitVec.eq_of_getLsbD_eq
  intro i hi
  simp [tagOf, hlo, hn, hi]

theorem taggedWrite_tagged {p : Params} (hw : p.sourceWidths = true) (old : Word24) {v : Word} (ht : v.extractLsb' 24 8 = p.tag) :
    taggedWrite p old v = v.extractLsb' 0 24 := by
  rw [taggedWrite, tagOf_eq_extract hw, if_pos ht, BitVec.setWidth_eq_extractLsb' (by decide)]

theorem taggedWrite_untagged {p : Params} (hw : p.sourceWidths = true) (old : Word24) {v : Word} (ht : v.extractLsb' 24 8 ≠ p.tag) :
    taggedWrite p old v = old := by
  rw [taggedWrite, tagOf_eq_extract hw, if_neg ht]

/-- Settles O8: below 2^32 the counter is the number of its word. -/
theorem busReadsAnswerTheCounterAndThePins : Obligations.BusReadsAnswerTheCounterAndThePins := by
  intro s
  refine ⟨fun hc => ⟨BitVec.ofNat 32 s.cnt, ?_, rfl⟩, rfl, rfl, rfl⟩
  rw [BitVec.toNat_ofNat, Nat.mod_eq_of_lt hc]

/-- Settles O9: the shadow takes a tagged word's low bits and leaves an untagged one. -/
theorem busWritesUpdateTheShadow : Obligations.BusWritesUpdateTheShadow := by
  intro s v hw
  refine ⟨rfl, fun ht => ?_, fun ht => ?_, rfl⟩
  · rw [memWrite_clkctl, memWrite_clkdiv, taggedWrite_tagged hw _ ht, taggedWrite_tagged hw _ ht]
    exact ⟨rfl, rfl⟩
  · rw [memWrite_clkctl, memWrite_clkdiv, taggedWrite_untagged hw _ ht, taggedWrite_untagged hw _ ht]
    exact ⟨rfl, rfl⟩

/-! ## What a step and a turn run -/

/-- Performing a selector, by what it decodes to (R50). -/
theorem perform_of_ok {x : Selector} {i : Instr} {s : State} (h : decodeSelector s.par x = .ok i) : perform (some x) s = exec i s := by
  simp only [perform, h]

theorem perform_of_error {x : Selector} {r : DecodeReject} {s : State} (h : decodeSelector s.par x = .error r) :
    perform (some x) s = .next s := by
  simp only [perform, h]

/-- Settles O40: fetching leaves the parameters, so the selector decodes after it as before. -/
theorem stepRunsTheSelectedOperation : Obligations.StepRunsTheSelectedOperation := by
  intro s
  obtain ⟨script, turn, hf⟩ := fetch_frame s
  have hpar : (fetch s).2.par = s.par := by rw [hf]
  refine ⟨⟨script, turn, hf⟩, fun x i hx hd => ?_, fun x r hx hd => ?_, fun hx => ?_⟩
  · rw [step, hx, perform_of_ok (hpar ▸ hd)]
  · rw [step, hx, perform_of_error (hpar ▸ hd)]
  · rw [step, hx]
    rfl

/-- Away from W0 and S0 the Sequencer's step moves `cp`. -/
theorem SeqStep.moves {p : Params} {halted : Bool} {c c' : ControlPoint} {es : List BusEvent} (h : SeqStep p halted c es c')
    (hw : c ≠ .w0) (hs : c ≠ .s0) : c' ≠ c := by
  cases h with
  | waiting | fetched => exact absurd rfl hw
  | waitdl => exact absurd rfl hs
  | stopped hc => exact fun h => absurd (h ▸ hc) (by decide)
  | fselClk | ctlReset | ctlEnable | ctlMode | rdcnt | setdiv | next | ctlOff | fselIn | sethalt => decide

/-- The Sequencer's turn leaves `cp` as it is exactly where `seq*` ends (R63, R90). -/
theorem takeTurn_sequencer_cp_iff {s t : State} (h : takeTurn .sequencer s = .next t) : t.cp = s.cp ↔ spinning s = true := by
  by_cases hw : s.cp = .w0
  · simp only [takeTurn_sequencer, hw, decodePoint] at h
    rcases exec_wait1_cases h with ⟨hh, -, rfl⟩ | ⟨hc, -, rfl⟩ | ⟨hh, hc, rfl⟩
    · simp [spinning, hw, hh]
    · simp [spinning, hw, hc.ne']
    · simp [spinning, hw, hh, hc]
  by_cases hs : s.cp = .s0
  · simp only [takeTurn_sequencer, hs, decodePoint] at h
    rcases exec_waitdl_cases h with ⟨hh, -, rfl⟩ | ⟨-, hr, rfl⟩ | ⟨-, hr, rfl⟩
    · simp [spinning, hs, hh]
    · simp [spinning, hs, hr]
    · cases hh : s.halt <;> simp [spinning, hs, hr, hh]
  by_cases hd : s.cp = .done
  · cases (takeTurn_sequencer_of_done hd).symm.trans h
    simp [spinning, hd]
  · obtain ⟨es, hstep, -⟩ := takeTurn_seqStep hd h
    refine iff_of_false (hstep.moves hw hs) ?_
    cases hc : s.cp <;> simp [spinning, hc] at hw hs hd ⊢

/-- Settles O42: a turn performs what its selector decodes to. -/
theorem turnsRunTheOperationsOfTheirAgents : Obligations.TurnsRunTheOperationsOfTheirAgents := by
  refine ⟨fun s h => by simp only [step, fetch, h]; rfl, fun s => ?_⟩
  refine ⟨fun i hi => perform_of_ok hi, takeTurn_sequencer_of_done, fun hp => ?_, fun hp => ?_,
    rfl, rfl, ?_⟩
  · have hdec (late : Bool) : decodeSelector s.par (.prodAt s.pcp late) = .ok (.produce late) := by
      cases hc : s.pcp with
      | p0 | p1 => rfl
      | pdone => exact absurd hc hp
    exact ⟨perform_of_ok (hdec false), perform_of_ok (hdec true)⟩
  · have hdec (late : Bool) : decodeSelector s.par (.prodAt s.pcp late) = .error .producerDone := by rw [hp]; rfl
    exact ⟨perform_of_error (hdec false), perform_of_error (hdec true)⟩
  · obtain ⟨t, ht⟩ := takeTurn_sequencer_completes s
    exact ⟨t, ht, takeTurn_sequencer_cp_iff ht⟩

end Sys2Proof.Machine
end

section
/-! PROOFS. The encoding family (spec/30_encoding.md): a control word as the sum of its fields (R52), decoding and encoding of the bus words
(R52 to R54, R59), and the lines of a stimulus script (R63). -/

namespace Sys2Proof.Machine

/-! ## Fields of a word -/

/-- A field of a bus word: its place, its width, and the value put there (R52). -/
structure WordField where
  lo : Nat
  width : Nat
  value : Nat

namespace WordField
variable {f g : WordField} {fs : List WordField} {i : Nat}

/-- The value at its place. -/
def word (f : WordField) : Word := BitVec.ofNat 32 f.value <<< f.lo

/-- A bit of the word lies in the field. -/
def Covers (f : WordField) (i : Nat) : Prop := f.lo ≤ i ∧ i < f.lo + f.width

/-- The value fits the field, and the field the word. -/
structure Fits (f : WordField) : Prop where
  value : f.value < 2 ^ f.width
  place : f.lo + f.width ≤ 32

/-- Two fields share no bit. -/
def Apart (f g : WordField) : Prop := ∀ i, f.Covers i → ¬ g.Covers i

/-- The fields of a word put together. -/
def assemble : List WordField → Word
  | [] => 0#32
  | f :: fs => f.word ||| assemble fs

theorem Apart.of_fieldMask (h : fieldMask f.lo f.width &&& fieldMask g.lo g.width = 0) : f.Apart g := by
  intro i hf hg
  have hbit := congrArg (Nat.testBit · i) h
  obtain ⟨hf, hf'⟩ := hf
  obtain ⟨hg, hg'⟩ := hg
  have hf'' : i - f.lo < f.width := by omega
  have hg'' : i - g.lo < g.width := by omega
  simp [fieldMask, Nat.testBit_shiftLeft, Nat.testBit_two_pow_sub_one, hf, hg, hf'', hg''] at hbit

theorem Fits.covers_of_getLsbD (hf : f.Fits) (h : f.word.getLsbD i = true) : f.Covers i := by
  simp only [word, BitVec.getLsbD_shiftLeft, BitVec.getLsbD_ofNat, Bool.and_eq_true, decide_eq_true_eq, Bool.not_eq_true',
    decide_eq_false_iff_not] at h
  obtain ⟨⟨-, hlo⟩, -, hbit⟩ := h
  have hlt : i - f.lo < f.width := (Nat.pow_lt_pow_iff_right (by decide)).1
    (Nat.lt_of_le_of_lt (Nat.ge_two_pow_of_testBit hbit) hf.value)
  exact ⟨by omega, by omega⟩

theorem Fits.getLsbD_eq_false (hf : f.Fits) (h : ¬ f.Covers i) : f.word.getLsbD i = false :=
  Bool.eq_false_iff.2 fun hb => h (hf.covers_of_getLsbD hb)

theorem Fits.toNat_word (hf : f.Fits) : f.word.toNat = f.value * 2 ^ f.lo := by
  have hlt : f.value * 2 ^ f.lo < 2 ^ 32 :=
    calc f.value * 2 ^ f.lo < 2 ^ f.width * 2 ^ f.lo := Nat.mul_lt_mul_of_pos_right hf.value (Nat.two_pow_pos _)
      _ = 2 ^ (f.lo + f.width) := by rw [← Nat.pow_add, Nat.add_comm]
      _ ≤ 2 ^ 32 := Nat.pow_le_pow_right (by decide) hf.place
  have hv : f.value < 2 ^ 32 := Nat.lt_of_le_of_lt (Nat.le_mul_of_pos_right _ (Nat.two_pow_pos _)) hlt
  rw [word, BitVec.toNat_shiftLeft, BitVec.toNat_ofNat, Nat.mod_eq_of_lt hv, Nat.shiftLeft_eq, Nat.mod_eq_of_lt hlt]

/-- A bit outside every field is 0. -/
theorem getLsbD_assemble_eq_false (hfit : ∀ g ∈ fs, g.Fits) (h : ∀ g ∈ fs, ¬ g.Covers i) : (assemble fs).getLsbD i = false := by
  induction fs with
  | nil => simp [assemble]
  | cons g fs ih =>
    simp only [List.forall_mem_cons] at hfit h
    simp only [assemble, BitVec.getLsbD_or, hfit.1.getLsbD_eq_false h.1, ih hfit.2 h.2, Bool.or_self]

theorem Fits.word_and_assemble (hf : f.Fits) (hfit : ∀ g ∈ fs, g.Fits) (hap : ∀ g ∈ fs, f.Apart g) : f.word &&& assemble fs = 0#32 := by
  apply BitVec.eq_of_getLsbD_eq
  intro i _
  rw [BitVec.getLsbD_and, BitVec.getLsbD_zero]
  by_cases hi : f.Covers i
  · rw [getLsbD_assemble_eq_false hfit fun g hg => hap g hg i hi, Bool.and_false]
  · rw [hf.getLsbD_eq_false hi, Bool.false_and]

/-- Fields that share no bit add up. -/
theorem toNat_assemble (hfit : ∀ f ∈ fs, f.Fits) (hap : fs.Pairwise Apart) :
    (assemble fs).toNat = (fs.map fun f => f.value * 2 ^ f.lo).sum := by
  induction fs with
  | nil => rfl
  | cons f fs ih =>
    simp only [List.forall_mem_cons] at hfit
    obtain ⟨hf, hfs⟩ := hfit
    obtain ⟨hapart, hap⟩ := List.pairwise_cons.1 hap
    have hand := hf.word_and_assemble hfs hapart
    rw [assemble, ← BitVec.add_eq_or_of_and_eq_zero _ _ hand, BitVec.toNat_add_of_and_eq_zero hand, ih hfs hap, hf.toNat_word,
      List.map_cons, List.sum_cons]

/-- A field's bits are those of its word. -/
theorem getLsbD_assemble_of_mem (hfit : ∀ g ∈ fs, g.Fits) (hap : fs.Pairwise Apart) (hf : f ∈ fs) (hi : f.Covers i) :
    (assemble fs).getLsbD i = f.word.getLsbD i := by
  induction fs with
  | nil => cases hf
  | cons g fs ih =>
    simp only [List.forall_mem_cons] at hfit
    obtain ⟨hg, hfs⟩ := hfit
    obtain ⟨hapart, hap⟩ := List.pairwise_cons.1 hap
    rw [assemble, BitVec.getLsbD_or]
    rcases List.mem_cons.1 hf with rfl | hf
    · rw [getLsbD_assemble_eq_false hfs fun g hg => hapart g hg i hi, Bool.or_false]
    · rw [ih hfs hap hf, hg.getLsbD_eq_false fun hc => hapart f hf i hc hi, Bool.false_or]

theorem Fits.word_eq_of_covered {lo width v v' : Nat} (hf : Fits ⟨lo, width, v⟩) (hg : Fits ⟨lo, width, v'⟩)
    (h : ∀ i, Covers ⟨lo, width, v⟩ i → (word ⟨lo, width, v⟩).getLsbD i = (word ⟨lo, width, v'⟩).getLsbD i) :
    word ⟨lo, width, v⟩ = word ⟨lo, width, v'⟩ := by
  apply BitVec.eq_of_getLsbD_eq
  intro i _
  by_cases hi : Covers ⟨lo, width, v⟩ i
  · exact h i hi
  · rw [hf.getLsbD_eq_false hi, hg.getLsbD_eq_false hi]

/-- Equal words have equal values in a field they share. -/
theorem value_eq_of_assemble_eq {gs : List WordField} {lo width v v' : Nat} (hfit : ∀ f ∈ fs, f.Fits) (hap : fs.Pairwise Apart)
    (hfit' : ∀ g ∈ gs, g.Fits) (hap' : gs.Pairwise Apart) (hf : ⟨lo, width, v⟩ ∈ fs) (hg : ⟨lo, width, v'⟩ ∈ gs)
    (h : assemble fs = assemble gs) : v = v' := by
  have hword := (hfit _ hf).word_eq_of_covered (hfit' _ hg) fun i hi => by
    rw [← getLsbD_assemble_of_mem hfit hap hf hi, h, getLsbD_assemble_of_mem hfit' hap' hg hi]
  have hnum := congrArg BitVec.toNat hword
  rw [(hfit _ hf).toNat_word, (hfit' _ hg).toNat_word] at hnum
  exact Nat.eq_of_mul_eq_mul_right (Nat.two_pow_pos _) hnum

end WordField

/-! ## The control words -/

/-- The fields of a control word, the tag first (R52). -/
def ctlFields (p : Params) (mash reset enab src : Nat) : List WordField :=
  [⟨24, 8, p.tag.toNat⟩, ⟨p.ctlMashLo, p.ctlMashW, mash⟩, ⟨p.ctlResetBit, 1, reset⟩, ⟨p.ctlEnabBit, 1, enab⟩,
    ⟨p.ctlSrcLo, p.ctlSrcW, src⟩]

/-- Field values that fit their fields (R52). -/
structure CtlValuesFit (p : Params) (mash reset enab src : Nat) : Prop where
  mash : mash < 2 ^ p.ctlMashW
  reset : reset ≤ 1
  enab : enab ≤ 1
  src : src < 2 ^ p.ctlSrcW

section Control
variable {p : Params} {mash reset enab src : Nat}

theorem ctlWord_eq_assemble (hw : p.sourceWidths = true) :
    ctlWord p mash reset enab src = WordField.assemble (ctlFields p mash reset enab src) := by
  simp only [ctlWord, ctlFields, WordField.assemble, WordField.word, tagBits, (tag_place hw).1, BitVec.ofNat_toNat, BitVec.or_zero,
    BitVec.or_assoc]

theorem ctlFieldsLegal_of_legal (h : p.legal = true) : p.ctlFieldsLegal = true := by
  simp only [Params.legal, Bool.and_eq_true] at h
  obtain ⟨⟨⟨-, hfields⟩, -⟩, -⟩ := h
  exact hfields

/-- In a legal layout every field lies below the tag (R52). -/
theorem ctlFields_fit (hp : p.legal = true) (hv : CtlValuesFit p mash reset enab src) : ∀ f ∈ ctlFields p mash reset enab src, f.Fits := by
  have hl := ctlFieldsLegal_of_legal hp
  simp only [Params.ctlFieldsLegal, (tag_place (sourceWidths_of_legal hp)).1, decide_eq_true_eq] at hl
  obtain ⟨hsrc, hmash, henab, hreset, -⟩ := hl
  obtain ⟨hm, hr, he, hs⟩ := hv
  have below {lo width v : Nat} (h : v < 2 ^ width) (hb : lo + width ≤ 24) : WordField.Fits ⟨lo, width, v⟩ :=
    ⟨h, Nat.le_trans hb (by decide)⟩
  simp only [ctlFields, List.forall_mem_cons]
  exact ⟨⟨p.tag.isLt, Nat.le_refl 32⟩, below hm hmash, below (by omega) hreset, below (by omega) henab, below hs hsrc, nofun⟩

/-- In a legal layout no two fields share a bit (R52). -/
theorem ctlFields_apart (hp : p.legal = true) : (ctlFields p mash reset enab src).Pairwise WordField.Apart := by
  have hl := ctlFieldsLegal_of_legal hp
  simp only [Params.ctlFieldsLegal, (tag_place (sourceWidths_of_legal hp)).1, decide_eq_true_eq] at hl
  obtain ⟨hsrc, hmash, henab, hreset, -, -, hne, hsm, hse, hsr, hme, hmr⟩ := hl
  have below {v : Nat} {g : WordField} (h : g.lo + g.width ≤ 24) : WordField.Apart ⟨24, 8, v⟩ g :=
    fun i ⟨hi, _⟩ ⟨_, hg⟩ => absurd (Nat.lt_of_lt_of_le hg h) (Nat.not_lt.2 hi)
  have hre : WordField.Apart ⟨p.ctlResetBit, 1, reset⟩ ⟨p.ctlEnabBit, 1, enab⟩ :=
    fun i ⟨hr, hr'⟩ ⟨he, he'⟩ => hne (by dsimp only at hr hr' he he'; omega)
  simp only [ctlFields, List.pairwise_cons, List.forall_mem_cons]
  exact ⟨⟨below hmash, below hreset, below henab, below hsrc, nofun⟩,
    ⟨.of_fieldMask hmr, .of_fieldMask hme, .of_fieldMask ((Nat.and_comm _ _).trans hsm), nofun⟩,
    ⟨hre, .of_fieldMask ((Nat.and_comm _ _).trans hsr), nofun⟩,
    ⟨.of_fieldMask ((Nat.and_comm _ _).trans hse), nofun⟩, nofun, .nil⟩

theorem toNat_ctlWord (hp : p.legal = true) (hv : CtlValuesFit p mash reset enab src) :
    (ctlWord p mash reset enab src).toNat =
      p.tag.toNat * 2 ^ 24 + mash * 2 ^ p.ctlMashLo + reset * 2 ^ p.ctlResetBit + enab * 2 ^ p.ctlEnabBit + src * 2 ^ p.ctlSrcLo := by
  rw [ctlWord_eq_assemble (sourceWidths_of_legal hp), WordField.toNat_assemble (ctlFields_fit hp hv) (ctlFields_apart hp)]
  simp only [ctlFields, List.map_cons, List.map_nil, List.sum_cons, List.sum_nil, Nat.add_assoc, Nat.add_zero]

/-- A control word has its fields back (R52). -/
theorem ctlWord_inj {mash' reset' enab' src' : Nat} (hp : p.legal = true) (hv : CtlValuesFit p mash reset enab src)
    (hv' : CtlValuesFit p mash' reset' enab' src') (h : ctlWord p mash reset enab src = ctlWord p mash' reset' enab' src') :
    mash = mash' ∧ reset = reset' ∧ enab = enab' ∧ src = src' := by
  rw [ctlWord_eq_assemble (sourceWidths_of_legal hp), ctlWord_eq_assemble (sourceWidths_of_legal hp)] at h
  have same {lo width v v' : Nat} (hf : ⟨lo, width, v⟩ ∈ ctlFields p mash reset enab src)
      (hg : ⟨lo, width, v'⟩ ∈ ctlFields p mash' reset' enab' src') : v = v' :=
    WordField.value_eq_of_assemble_eq (ctlFields_fit hp hv) (ctlFields_apart hp) (ctlFields_fit hp hv') (ctlFields_apart hp) hf hg h
  refine ⟨same (lo := p.ctlMashLo) (width := p.ctlMashW) ?_ ?_, same (lo := p.ctlResetBit) (width := 1) ?_ ?_,
    same (lo := p.ctlEnabBit) (width := 1) ?_ ?_, same (lo := p.ctlSrcLo) (width := p.ctlSrcW) ?_ ?_⟩ <;> simp [ctlFields]

theorem tagOf_ctlWord (hp : p.legal = true) (hv : CtlValuesFit p mash reset enab src) : tagOf p (ctlWord p mash reset enab src) = p.tag := by
  have hw := sourceWidths_of_legal hp
  rw [tagOf_eq_extract hw, ctlWord_eq_assemble hw]
  apply BitVec.eq_of_getLsbD_eq
  intro i hi
  have htag := WordField.getLsbD_assemble_of_mem (i := 24 + i) (ctlFields_fit hp hv) (ctlFields_apart hp) (List.mem_cons_self ..)
    ⟨Nat.le_add_right _ _, Nat.add_lt_add_left hi _⟩
  rw [BitVec.getLsbD_extractLsb', htag]
  have h32 : 24 + i < 32 := by omega
  simp [WordField.word, hi, h32]

end Control

/-- Settles O7: the fields of a legal layout share no bit, so they add up. -/
theorem controlWordsAreTheSumOfTheirFields : Obligations.ControlWordsAreTheSumOfTheirFields :=
  fun _ _ _ _ _ hp hm hr he hs => toNat_ctlWord hp ⟨hm, hr, he, hs⟩

/-! ## Decoding and encoding -/

section Coding
variable {p : Params}

/-- The field values of the four control words fit (R52, R59). -/
theorem fit_wReset : CtlValuesFit p 0 1 0 0 := ⟨Nat.two_pow_pos _, Nat.le_refl 1, Nat.zero_le 1, Nat.two_pow_pos _⟩
theorem fit_wEnable : CtlValuesFit p 0 0 1 0 := ⟨Nat.two_pow_pos _, Nat.zero_le 1, Nat.le_refl 1, Nat.two_pow_pos _⟩
theorem fit_wOff : CtlValuesFit p 0 0 0 0 := ⟨Nat.two_pow_pos _, Nat.zero_le 1, Nat.zero_le 1, Nat.two_pow_pos _⟩
theorem fit_wMode (hp : p.legal = true) : CtlValuesFit p p.mashSel 0 1 p.srcSel := by
  have hl := ctlFieldsLegal_of_legal hp
  simp only [Params.ctlFieldsLegal, decide_eq_true_eq] at hl
  obtain ⟨-, -, -, -, hsrc, hmash, -⟩ := hl
  exact ⟨hmash, Nat.zero_le 1, Nat.le_refl 1, hsrc⟩

/-- The four control words are four where the mode word sets something besides the enable bit (R59). -/
theorem controlWords_nodup (hp : p.legal = true) (hmode : p.mashSel ≠ 0 ∨ p.srcSel ≠ 0) :
    [wReset p, wEnable p, wMode p, wOff p].Nodup := by
  have hre : wReset p ≠ wEnable p := fun h => nomatch (ctlWord_inj hp fit_wReset fit_wEnable h).2.1
  have hrm : wReset p ≠ wMode p := fun h => nomatch (ctlWord_inj hp fit_wReset (fit_wMode hp) h).2.1
  have hro : wReset p ≠ wOff p := fun h => nomatch (ctlWord_inj hp fit_wReset fit_wOff h).2.1
  have hem : wEnable p ≠ wMode p := fun h => by
    obtain ⟨hmash, -, -, hsrc⟩ := ctlWord_inj hp fit_wEnable (fit_wMode hp) h
    exact hmode.elim (· hmash.symm) (· hsrc.symm)
  have heo : wEnable p ≠ wOff p := fun h => nomatch (ctlWord_inj hp fit_wEnable fit_wOff h).2.2.1
  have hmo : wMode p ≠ wOff p := fun h => nomatch (ctlWord_inj hp (fit_wMode hp) fit_wOff h).2.2.1
  simp [hre, hrm, hro, hem, heo, hmo]

/-- The tag over the low bits of a tagged word is the word (R53). -/
theorem divWord_divField (hw : p.sourceWidths = true) {w : Word} (ht : tagOf p w = p.tag) : divWord p ((divField w).setWidth 32) = w := by
  rw [tagOf_eq_extract hw] at ht
  apply BitVec.eq_of_getLsbD_eq
  intro i hi
  rcases Nat.lt_or_ge i 24 with hlow | hhigh
  · simp [divWord, divField, tagBits, (tag_place hw).1, hlow, hi]
  · obtain ⟨k, rfl⟩ := Nat.exists_eq_add_of_le hhigh
    have hk : k < 8 := by omega
    simp [divWord, divField, tagBits, (tag_place hw).1, ← ht, hi, hk]

/-- A W-DIV word is told by its tag and has its divisor back (R53). -/
theorem decodeWrite_divWord (hw : p.sourceWidths = true) (d : Word24) :
    decodeWrite p .clkdiv (divWord p (d.setWidth 32)) = .ok (.setdiv d) := by
  have hd : divField (d.setWidth 32) = d := by simp [divField]
  simp [decodeWrite, tagOf_divWord hw, divField_divWord hw, hd]

theorem getLsbD_fselWord_of_mask_false {old : Word} {f : PinFunction} {i : Nat} (hm : p.pinMask.getLsbD i = false) (hi : i < 32)
    (hw : p.fselw = 3) : (fselWord p old f).getLsbD i = old.getLsbD i := by
  rw [getLsbD_pinMask, hw, decide_eq_true hi, Bool.true_and, decide_eq_false_iff_not] at hm
  exact getLsbD_fselWord_other p old f hw (by omega)

/-- Outside the target field nothing is left of a function put there (R54). -/
theorem fselWord_and_not_pinMask (hw : p.fselw = 3) {others : Word} (h : others &&& p.pinMask = 0#32) (f : PinFunction) :
    fselWord p others f &&& ~~~p.pinMask = others := by
  apply BitVec.eq_of_getLsbD_eq
  intro i hi
  rw [BitVec.getLsbD_and, BitVec.getLsbD_not, decide_eq_true hi, Bool.true_and]
  cases hm : p.pinMask.getLsbD i with
  | true =>
    have hzero := congrArg (BitVec.getLsbD · i) h
    simp only [BitVec.getLsbD_and, hm, Bool.and_true, BitVec.getLsbD_zero] at hzero
    rw [hzero, Bool.not_true, Bool.and_false]
  | false => rw [getLsbD_fselWord_of_mask_false hm hi hw, Bool.not_false, Bool.and_true]

/-- A PINFSEL word's own function put back into it gives the word (R54). -/
theorem fselWord_pinField (hw : p.fselw = 3) (w : Word) : fselWord p (w &&& ~~~p.pinMask) (pinField p w) = w := by
  apply BitVec.eq_of_getLsbD_eq
  intro i hi
  cases hm : p.pinMask.getLsbD i with
  | true =>
    rw [getLsbD_pinMask, hw, Bool.and_eq_true, decide_eq_true_eq, decide_eq_true_eq] at hm
    obtain ⟨-, hlo, hup⟩ := hm
    obtain ⟨k, rfl⟩ := Nat.exists_eq_add_of_le hlo
    have hk : k < 3 := by omega
    have hmask : p.pinMask.getLsbD (p.pinShift + k) = true := by simp [getLsbD_pinMask, hw, hi, hk]
    simp [fselWord, pinField, hw, hi, hk, hmask]
  | false => rw [getLsbD_fselWord_of_mask_false hm hi hw, BitVec.getLsbD_and, BitVec.getLsbD_not, hm, decide_eq_true hi]; simp

/-- A W-FSEL word is told by its function and has the other pins' bits back (R54). -/
theorem decodeWrite_fselWord (hp : p.legal = true) {others : Word} (h : others &&& p.pinMask = 0#32) (hne : p.fselClk ≠ fselIn) :
    decodeWrite p .pinfsel (fselWord p others p.fselClk) = .ok (.fselClk others) ∧
      decodeWrite p .pinfsel (fselWord p others fselIn) = .ok (.fselIn others) := by
  have hw := fselw_eq (sourceWidths_of_legal hp)
  simp [decodeWrite, pinField_fselWord_of_legal hp, fselWord_and_not_pinMask hw h, hne.symm]

/-- Each of the four control words is its own row's (R59). -/
theorem decodeWrite_controlWords (hp : p.legal = true) (hmode : p.mashSel ≠ 0 ∨ p.srcSel ≠ 0) :
    decodeWrite p .clkctl (wReset p) = .ok .ctlReset ∧ decodeWrite p .clkctl (wEnable p) = .ok .ctlEnable ∧
      decodeWrite p .clkctl (wMode p) = .ok .ctlMode ∧ decodeWrite p .clkctl (wOff p) = .ok .ctlOff := by
  have htag : tagOf p (wReset p) = p.tag ∧ tagOf p (wEnable p) = p.tag ∧ tagOf p (wMode p) = p.tag ∧ tagOf p (wOff p) = p.tag :=
    ⟨tagOf_ctlWord hp fit_wReset, tagOf_ctlWord hp fit_wEnable, tagOf_ctlWord hp (fit_wMode hp), tagOf_ctlWord hp fit_wOff⟩
  have hdiff := controlWords_nodup hp hmode
  simp only [List.nodup_cons, List.mem_cons, List.not_mem_nil, or_false, not_or] at hdiff
  obtain ⟨⟨hre, hrm, hro⟩, ⟨hem, heo⟩, hmo, -⟩ := hdiff
  simp [decodeWrite, htag, Ne.symm hre, Ne.symm hrm, Ne.symm hro, Ne.symm hem, Ne.symm heo, Ne.symm hmo]

end Coding

/-- Settles O4: a legal layout keeps every field of a write apart from the others, and no two of the words of a register are one. -/
theorem decodingAnEncodedWriteGivesItBack : Obligations.DecodingAnEncodedWriteGivesItBack := by
  intro p op hp hpin hsel hwf
  obtain ⟨hreset, henable, hmode, hoff⟩ := decodeWrite_controlWords hp hsel
  cases op with
  | setdiv d => exact decodeWrite_divWord (sourceWidths_of_legal hp) d
  | fselClk others => exact (decodeWrite_fselWord hp (beq_iff_eq.1 hwf) hpin).1
  | fselIn others => exact (decodeWrite_fselWord hp (beq_iff_eq.1 hwf) hpin).2
  | ctlReset => exact hreset
  | ctlEnable => exact henable
  | ctlMode => exact hmode
  | ctlOff => exact hoff

/-- Settles O5: a test that accepts a word says of its fields what the encoder puts there. -/
theorem encodingADecodedWordGivesItBack : Obligations.EncodingADecodedWordGivesItBack := by
  intro p r w op hw h
  have hclear : (w &&& ~~~p.pinMask) &&& p.pinMask = 0#32 := by rw [BitVec.and_assoc, BitVec.and_comm (~~~p.pinMask)]; simp
  have hput {f : PinFunction} (hf : pinField p w = f) : fselWord p (w &&& ~~~p.pinMask) f = w := hf ▸ fselWord_pinField (fselw_eq hw) w
  cases r with
  | counter => cases h
  | clkctl =>
    simp only [decodeWrite] at h
    repeat' split at h
    · cases h
    · cases h; exact ⟨rfl, Eq.symm ‹w = wReset p›, rfl⟩
    · cases h; exact ⟨rfl, Eq.symm ‹w = wEnable p›, rfl⟩
    · cases h; exact ⟨rfl, Eq.symm ‹w = wMode p›, rfl⟩
    · cases h; exact ⟨rfl, Eq.symm ‹w = wOff p›, rfl⟩
    · cases h
  | clkdiv =>
    simp only [decodeWrite] at h
    split at h
    · cases h
    · cases h
      exact ⟨rfl, divWord_divField hw (not_not.1 ‹_›), rfl⟩
  | pinfsel =>
    simp only [decodeWrite] at h
    split at h
    · cases h; exact ⟨rfl, hput ‹pinField p w = p.fselClk›, beq_iff_eq.2 hclear⟩
    split at h
    · cases h; exact ⟨rfl, hput ‹pinField p w = fselIn›, beq_iff_eq.2 hclear⟩
    · cases h

/-- Settles O3: each word is run through the decoder under the default layout. -/
theorem theTableWordsDecodeToTheirRows : Obligations.TheTableWordsDecodeToTheirRows := by
  unfold Obligations.TheTableWordsDecodeToTheirRows
  decide

/-! ## The lines of a script -/

section Lines
variable {s : State} {line : Stim} {rest more : List Stim} {x : Selector} {i : Instr}

/-- A step on a script is its first line's (R63; log 5). -/
theorem step_of_line {sel : Option Selector} (hs : s.script = line :: rest) (hl : lineSelector s line = (sel, more)) :
    step s = perform sel { s with script := more ++ rest } := by
  simp only [step, fetch, hs, hl]

theorem step_of_line_ok (hs : s.script = line :: rest) (hl : lineSelector s line = (some x, more)) (hd : decodeSelector s.par x = .ok i) :
    step s = exec i { s with script := more ++ rest } :=
  (step_of_line hs hl).trans (perform_of_ok hd)

/-- A line that stays leaves the script as it is. -/
theorem step_of_line_stays (hs : s.script = line :: rest) (hl : lineSelector s line = (some x, [line]))
    (hd : decodeSelector s.par x = .ok i) : step s = exec i s := by
  rw [step_of_line_ok hs hl hd, List.singleton_append, ← hs]

theorem step_of_line_over (hs : s.script = line :: rest) (hl : lineSelector s line = (none, [])) :
    step s = .next { s with script := rest } :=
  step_of_line hs hl

end Lines

/-- Settles O41, line by line. -/
theorem scriptLinesRunTheirOperations : Obligations.ScriptLinesRunTheirOperations := by
  intro s rest
  refine ⟨fun d hs => ?push, fun hs => ?halt, fun n hs => ?tick, fun hs => ?tickOver, fun i hs hi => ?seq, fun hs hc => ?seqDone,
    fun i hs hspin hi => ?seqStar, fun hs hspin => ?seqStarOver, fun v hs hp hv => ?sample, fun v hs hp => ?sampleWaits,
    fun v hs hp => ?sampleOver, fun hs hp => ?offer, fun hs hp => ?offerOver, fun hs => ?produce, fun hs => ?timeout⟩
  case push => exact step_of_line_ok hs rfl rfl
  case halt => exact step_of_line_ok hs rfl rfl
  case tick => exact step_of_line_ok hs rfl rfl
  case tickOver => exact step_of_line_over hs rfl
  case seq => exact step_of_line_ok hs rfl hi
  case seqDone => rw [step_of_line hs rfl, hc]; rfl
  case seqStar => exact step_of_line_stays hs (if_neg (by simp [hspin])) hi
  case seqStarOver => exact step_of_line_over hs (if_pos hspin)
  case sample => exact step_of_line_ok (x := .sample v) (more := [.offer]) hs (by simp [lineSelector, hp]) (if_pos hv)
  case sampleWaits => exact step_of_line_stays (x := .prodAt .p1 false) hs (by simp [lineSelector, hp]) rfl
  case sampleOver => exact step_of_line_over hs (by simp [lineSelector, hp])
  case offer => exact step_of_line_stays hs (if_pos hp) rfl
  case offerOver => exact step_of_line_over hs (if_neg hp)
  case produce => exact step_of_line hs rfl
  case timeout => exact step_of_line hs rfl

end Sys2Proof.Machine
end

section
/-! PROOFS. The FIFO family (spec/41_fifo.md): what PUSH and PULL do (R70, R71), the order of the values (R72), and the count (R73). -/

namespace Sys2Proof.Machine

/-! ## One queue operation -/

section Operation
variable {s : State}

/-- The queue word a PUSH with room stores (R70). -/
theorem readQ_push_last (d : Word) (hc : s.count < s.par.qmax) : (push d s).2.readQ ((s.head + s.count) % s.par.qmax) = d := by
  rw [push_of_lt d hc]
  exact congrArg (Option.getD · _) (read_pushed_last d)

/-- A PUSH with room stores at one index only (R70). -/
theorem readQ_push_other (d : Word) (hc : s.count < s.par.qmax) {i : Nat} (hi : i ≠ (s.head + s.count) % s.par.qmax) :
    (push d s).2.readQ i = s.readQ i := by
  rw [push_of_lt d hc]
  exact congrArg (Option.getD · _) (Memory.read_write_other s.q d hi)

theorem push_succeeds_iff (d : Word) : (push d s).1 = true ↔ s.count < s.par.qmax := by
  by_cases hc : s.count < s.par.qmax
  · simp [push_of_lt d hc, hc]
  · simp [push_of_full d hc, hc]

theorem pull_succeeds_iff : (pull s).1.isSome = true ↔ 0 < s.count := by
  rcases Nat.eq_zero_or_pos s.count with hc | hc
  · simp [pull_of_empty hc, hc]
  · simp [pull_of_pos hc, hc]

end Operation

/-- Settles O11: with room the result is read from the written queue, and a full queue is left as it is. -/
theorem pushStoresBehindTheLastEntryOrFails : Obligations.PushStoresBehindTheLastEntryOrFails := by
  intro d s
  refine ⟨(push d s).2, exec_push d s, ?frame, fun hc => ?room, fun hc => ?full⟩
  case frame =>
    obtain ⟨q, count, h⟩ := push_frame d s
    rw [h]
  case room =>
    refine ⟨(push_succeeds_iff d).2 hc, ?_, readQ_push_last d hc, fun i hi => readQ_push_other d hc hi⟩
    rw [push_of_lt d hc]
  case full =>
    rw [push_of_full d hc]
    exact ⟨rfl, rfl⟩

/-- Settles O12, by the two cases of PULL. -/
theorem pullTakesTheWordAtHeadOrFails : Obligations.PullTakesTheWordAtHeadOrFails := by
  intro s
  refine ⟨fun hc => ?entry, fun hc => ?empty⟩
  case entry =>
    rw [exec_pull, pull_of_pos hc]
    exact ⟨rfl, rfl⟩
  case empty =>
    rw [exec_pull, pull_of_empty hc]
    exact ⟨rfl, rfl⟩

/-! ## A sequence of queue operations -/

section Runs
variable {s : State} (ops : List (Option Word))

theorem fifoRun_push_of_lt (d : Word) (hc : s.count < s.par.qmax) : fifoRun (some d :: ops) s =
    (d :: (fifoRun ops (push d s).2).1, (fifoRun ops (push d s).2).2.1, (fifoRun ops (push d s).2).2.2) := by
  simp only [fifoRun, (push_succeeds_iff d).2 hc, if_true]

theorem fifoRun_push_of_full (d : Word) (hc : ¬ s.count < s.par.qmax) : fifoRun (some d :: ops) s = fifoRun ops s := by
  simp only [fifoRun, push_of_full d hc, Bool.false_eq_true, if_false]

theorem fifoRun_pull_of_pos (hc : 0 < s.count) : fifoRun (none :: ops) s =
    ((fifoRun ops (pull s).2).1, s.readQ s.head :: (fifoRun ops (pull s).2).2.1, (fifoRun ops (pull s).2).2.2) := by
  simp only [fifoRun, pull_of_pos hc, Option.toList_some, List.singleton_append]

theorem fifoRun_pull_of_empty (hc : s.count = 0) : fifoRun (none :: ops) s = fifoRun ops s := by
  simp only [fifoRun, pull_of_empty hc, Option.toList_none, List.nil_append]

end Runs

/-- What a sequence of queue operations does from `s`: the words accepted, the words that came out, and the state it ends in. A PUSH on a
full queue and a PULL on an empty one leave no mark (R70, R71), so only the successful operations are steps. -/
inductive FifoTrace : State → List Word → List Word → State → Prop
  | nil (s : State) : FifoTrace s [] [] s
  | accept {s t : State} {d : Word} {accepted out : List Word} (room : s.count < s.par.qmax)
      (rest : FifoTrace (push d s).2 accepted out t) : FifoTrace s (d :: accepted) out t
  | take {s t : State} {accepted out : List Word} (entry : 0 < s.count)
      (rest : FifoTrace (pull s).2 accepted out t) : FifoTrace s accepted (s.readQ s.head :: out) t

/-- Every run of queue operations is a trace of its successful ones. -/
theorem fifoRun_trace (ops : List (Option Word)) (s : State) :
    FifoTrace s (fifoRun ops s).1 (fifoRun ops s).2.1 (fifoRun ops s).2.2 := by
  induction ops generalizing s with
  | nil => exact .nil s
  | cons op ops ih =>
    cases op with
    | some d =>
      by_cases hc : s.count < s.par.qmax
      · rw [fifoRun_push_of_lt ops d hc]
        exact .accept hc (ih _)
      · rw [fifoRun_push_of_full ops d hc]
        exact ih s
    | none =>
      rcases Nat.eq_zero_or_pos s.count with hc | hc
      · rw [fifoRun_pull_of_empty ops hc]
        exact ih s
      · rw [fifoRun_pull_of_pos ops hc]
        exact .take hc (ih _)

namespace FifoTrace
variable {s t : State} {accepted out : List Word}

/-- First in, first out: the words held and accepted are those that came out and are held still, in one order (R72). -/
theorem contents_append (h : FifoTrace s accepted out t) (hi : s.Inv) : s.contents ++ accepted = out ++ t.contents := by
  induction h with
  | nil s => rw [List.append_nil, List.nil_append]
  | @accept s t d accepted out room _ ih =>
    calc s.contents ++ d :: accepted
      _ = (push d s).2.contents ++ accepted := by rw [contents_push d room, List.append_assoc, List.singleton_append]
      _ = out ++ t.contents := ih (hi.pushed d)
  | @take s t accepted out entry _ ih =>
    have hp : (pull s).2.Inv := by
      rw [pull_of_pos entry]
      exact hi.pulled
    rw [contents_pull hi.head entry, List.cons_append, ih hp, List.cons_append]

/-- The count moves by one with each word accepted or taken, within the queue (R73). -/
theorem count (h : FifoTrace s accepted out t) (hc : s.count ≤ s.par.qmax) :
    t.count ≤ s.par.qmax ∧ t.count + out.length = s.count + accepted.length := by
  induction h with
  | nil s => exact ⟨hc, rfl⟩
  | @accept s t d accepted out room _ ih =>
    rw [push_of_lt d room] at ih
    obtain ⟨hle, heq⟩ := ih room
    refine ⟨hle, ?_⟩
    simp only [List.length_cons] at heq ⊢
    omega
  | @take s t accepted out entry _ ih =>
    rw [pull_of_pos entry] at ih
    obtain ⟨hle, heq⟩ := ih ((Nat.sub_le _ _).trans hc)
    refine ⟨hle, ?_⟩
    simp only [List.length_cons] at heq ⊢
    omega

end FifoTrace

/-- Settles O14: an empty queue holds nothing, so what came out begins what was accepted. -/
theorem valuesComeOutInTheOrderPushed : Obligations.ValuesComeOutInTheOrderPushed := by
  intro ops s hi
  have h := (fifoRun_trace ops s).contents_append hi
  refine ⟨h, fun hc => ⟨(fifoRun ops s).2.2.contents, ?_⟩⟩
  rw [← h, contents_empty hc, List.nil_append]

/-- Settles O15: success from the guard of each operation, the count by induction over the successful ones. -/
theorem countStaysWithinTheQueue : Obligations.CountStaysWithinTheQueue :=
  ⟨fun d _ => ⟨push_succeeds_iff d, pull_succeeds_iff⟩, fun ops s hc => (fifoRun_trace ops s).count hc⟩

end Sys2Proof.Machine
end

section
/-! PROOFS. The conversion family (spec/42_convert.md): what CONV and the timeout step do to the state (R82, R83, R86), rounding to a format
(R81), and the arithmetic of R80 as exact operations rounded once. -/

namespace Sys2Proof.Machine

/-! ## CONV and the timeout step -/

/-- Settles O16: the model evaluated at each vector. -/
theorem conversionGivesTheWorkedDivisors : Obligations.ConversionGivesTheWorkedDivisors :=
  ⟨by decide, by decide, by decide, by decide, by decide, by decide⟩

/-- Settles O17: CONV is the Producer's way with a sample, in its two cases. -/
theorem convFillsPendOrRecordsConvRange : Obligations.ConvFillsPendOrRecordsConvRange := fun v s =>
  ⟨fun _ hc => congrArg Host.Outcome.next (takeSample_of_some hc),
    fun hc => ⟨_, congrArg Host.Outcome.next (takeSample_of_none hc), rfl, s.mem_raise_faults (.convRange v)⟩⟩

section Timeout
variable {s : State}

/-- PRODUCE at the end of the Producer, on a timeout, and on a timeout that is not configured (R84, R86; logs 12, 27). -/
theorem exec_produce_of_pdone (late : Bool) (hp : s.pcp = .pdone) : exec (.produce late) s = .next s := by
  simp only [exec, execProduce, hp]

theorem exec_produce_of_timeout (ht : s.par.timeoutS.isSome = true) (hp : s.pcp ≠ .pdone) :
    exec (.produce true) s = .next (produceTimeout s) := by
  cases hc : s.pcp with
  | p0 => simp only [exec, execProduce, hc, ht, Bool.and_self, if_true]
  | p1 => simp only [exec, execProduce, hc, ht, Bool.and_self, if_true]
  | pdone => exact absurd hc hp

theorem exec_produce_of_no_timeout (ht : s.par.timeoutS = none) (late : Bool) : exec (.produce late) s = exec (.produce false) s := by
  simp only [exec, execProduce, ht, Option.isSome_none, Bool.and_false]

end Timeout

/-- Settles O23: the three cases of the operand. -/
theorem timeoutHaltsAndStopsTheProducer : Obligations.TimeoutHaltsAndStopsTheProducer := fun _ =>
  ⟨exec_produce_of_timeout, fun ht => exec_produce_of_no_timeout ht true, exec_produce_of_pdone⟩

/-! ## A fraction on the scale of a last place

At the exponent `e` of the last place a fraction `num / den` is `num * 2 ^ (-e).toNat` over `den * 2 ^ e.toNat`: one of the two powers
is 1. -/

/-- The two scaling powers make the power of an integer exponent. -/
theorem two_pow_toNat_div (e : Int) : (2 : Rat) ^ e.toNat / 2 ^ (-e).toNat = 2 ^ e := by
  rw [← zpow_natCast, ← zpow_natCast, ← zpow_sub₀ two_ne_zero, Int.toNat_sub_toNat_neg]

theorem two_pow_mul_zpow (k : Nat) (e : Int) : (2 : Rat) ^ k * 2 ^ e = 2 ^ (k + e) := by
  rw [← zpow_natCast, ← zpow_add₀ two_ne_zero]

section Scaled
variable {num den : Nat}

/-- A fraction is at least `c` last places exactly where it is on their scale. -/
theorem mul_scaled_le_iff (hd : 0 < den) (c : Nat) (e : Int) :
    c * (den * 2 ^ e.toNat) ≤ num * 2 ^ (-e).toNat ↔ (c : Rat) * 2 ^ e ≤ num / den := by
  have hden : (0 : Rat) < den := Nat.cast_pos.2 hd
  have hpow : (0 : Rat) < 2 ^ (-e).toNat := by positivity
  rw [← two_pow_toNat_div e, ← mul_div_assoc, div_le_div_iff₀ hpow hden, ← Nat.cast_le (α := Rat)]
  push_cast
  rw [mul_assoc, mul_comm (den : Rat)]

/-- A fraction of at least `c` last places is at least `c` smaller ones. -/
theorem mul_scaled_le_of_exp_le (hd : 0 < den) {c : Nat} {e e' : Int} (he : e ≤ e')
    (h : c * (den * 2 ^ e'.toNat) ≤ num * 2 ^ (-e').toNat) : c * (den * 2 ^ e.toNat) ≤ num * 2 ^ (-e).toNat := by
  rw [mul_scaled_le_iff hd] at h ⊢
  have hpow : (2 : Rat) ^ e ≤ 2 ^ e' := zpow_le_zpow_right₀ one_le_two he
  exact (mul_le_mul_of_nonneg_left hpow c.cast_nonneg).trans h

/-- At the next exponent the denominator has doubled or the numerator has halved. -/
theorem scaled_succ (num den : Nat) (e : Int) :
    (num * 2 ^ (-(e + 1)).toNat = num * 2 ^ (-e).toNat ∧ den * 2 ^ (e + 1).toNat = 2 * (den * 2 ^ e.toNat)) ∨
    (num * 2 ^ (-e).toNat = 2 * (num * 2 ^ (-(e + 1)).toNat) ∧ den * 2 ^ (e + 1).toNat = den * 2 ^ e.toNat) := by
  rcases lt_or_ge e 0 with h | h
  · have hnum : (-e).toNat = (-(e + 1)).toNat + 1 := by omega
    have hden : (e + 1).toNat = e.toNat := by omega
    exact .inr ⟨by rw [hnum, pow_succ', Nat.mul_left_comm], by rw [hden]⟩
  · have hnum : (-(e + 1)).toNat = (-e).toNat := by omega
    have hden : (e + 1).toNat = e.toNat + 1 := by omega
    exact .inl ⟨by rw [hnum], by rw [hden, pow_succ', Nat.mul_left_comm]⟩

/-- The leading bits of its two terms bracket a fraction. -/
theorem div_mem_of_log2 (hn : 0 < num) (hd : 0 < den) :
    (2 : Rat) ^ ((Nat.log2 num : Int) - Nat.log2 den - 1) ≤ num / den ∧
    (num / den : Rat) < 2 ^ ((Nat.log2 num : Int) - Nat.log2 den + 1) := by
  have hden : (0 : Rat) < den := Nat.cast_pos.2 hd
  have hnlo : (2 : Rat) ^ Nat.log2 num ≤ num := mod_cast Nat.log2_self_le hn.ne'
  have hnhi : (num : Rat) < 2 ^ (Nat.log2 num + 1) := mod_cast Nat.lt_log2_self
  have hdlo : (2 : Rat) ^ Nat.log2 den ≤ den := mod_cast Nat.log2_self_le hd.ne'
  have hdhi : (den : Rat) ≤ 2 ^ (Nat.log2 den + 1) := mod_cast Nat.lt_log2_self.le
  have hdiv (i j : Nat) : (2 : Rat) ^ i / 2 ^ j = 2 ^ ((i : Int) - j) := by rw [zpow_sub₀ two_ne_zero, zpow_natCast, zpow_natCast]
  constructor
  · calc (2 : Rat) ^ ((Nat.log2 num : Int) - Nat.log2 den - 1)
      _ = 2 ^ Nat.log2 num / 2 ^ (Nat.log2 den + 1) := by rw [hdiv, Nat.cast_succ, sub_sub]
      _ ≤ num / den := by gcongr
  · calc (num / den : Rat)
      _ < 2 ^ (Nat.log2 num + 1) / 2 ^ Nat.log2 den := by gcongr
      _ = 2 ^ ((Nat.log2 num : Int) - Nat.log2 den + 1) := by rw [hdiv, Nat.cast_succ, sub_add_eq_add_sub]

/-- `floatExp` leaves exactly `prec` bits in front of the point. -/
theorem floatExp_bounds (f : FloatFormat) (hp : 1 ≤ f.prec) (hn : 0 < num) (hd : 0 < den) :
    (2 : Rat) ^ (f.prec - 1) * 2 ^ floatExp f num den ≤ num / den ∧ (num / den : Rat) < 2 ^ f.prec * 2 ^ floatExp f num den := by
  obtain ⟨hlo, hhi⟩ := div_mem_of_log2 hn hd
  have htest (e : Int) : num * 2 ^ (-e).toNat < den * 2 ^ e.toNat * 2 ^ (f.prec - 1) ↔
      (num / den : Rat) < 2 ^ (f.prec - 1) * 2 ^ e := by
    rw [mul_comm _ (2 ^ (f.prec - 1)), ← not_le, mul_scaled_le_iff hd, not_le, Nat.cast_pow, Nat.cast_ofNat]
  simp only [floatExp, htest]
  split
  · next hlt =>
    rw [two_pow_mul_zpow] at hlt ⊢
    rw [two_pow_mul_zpow]
    constructor
    · convert hlo using 2
      omega
    · convert hlt using 2
      omega
  · next hge =>
    refine ⟨not_lt.1 hge, ?_⟩
    rw [two_pow_mul_zpow]
    convert hhi using 2
    omega

end Scaled

/-! ## The nearest integer -/

section NearestEven
variable {prec n d n' d' : Nat} {least : Prop}

/-- `nearestEven` is within a half, and even in a tie. -/
theorem nearestEven_half (n : Nat) (hd : 0 < d) :
    2 * ((n : Int) - (nearestEven n d * d : Nat)).natAbs ≤ d ∧
    (2 * ((n : Int) - (nearestEven n d * d : Nat)).natAbs = d → nearestEven n d % 2 = 0) := by
  have hr : n % d < d := Nat.mod_lt n hd
  have hn : n / d * d + n % d = n := Nat.div_add_mod' n d
  have hs : (n / d + 1) * d = n / d * d + d := Nat.succ_mul (n / d) d
  simp only [nearestEven]
  split_ifs <;> omega

theorem nearestEven_mem (n d : Nat) : n / d ≤ nearestEven n d ∧ nearestEven n d ≤ n / d + 1 := by
  simp only [nearestEven]
  split_ifs <;> omega

/-- `m` is the significand of a format of `prec` bits for the fraction `n / d` of last places, where `least` says that the exponent is the
format's least: in range, with its leading bit, within a half and even in a tie, and within a quarter below a power of two, where the
format's values are twice as close. -/
structure IsNearest (prec m n d : Nat) (least : Prop) : Prop where
  lt : m < 2 ^ prec
  leading : 2 ^ (prec - 1) ≤ m ∨ least
  half : 2 * ((n : Int) - (m * d : Nat)).natAbs ≤ d
  tie : 2 * ((n : Int) - (m * d : Nat)).natAbs = d → m % 2 = 0
  quarter : m = 2 ^ (prec - 1) → ¬ least → n < m * d → 4 * (m * d - n) ≤ d

/-- Without a carry the nearest integer is the significand: a fraction that has its leading bit is never below the least such one. -/
theorem isNearest_nearestEven (hd : 0 < d) (hm : nearestEven n d < 2 ^ prec) (hl : 2 ^ (prec - 1) * d ≤ n ∨ least) :
    IsNearest prec (nearestEven n d) n d least where
  lt := hm
  leading := hl.imp_left fun h => ((Nat.le_div_iff_mul_le hd).2 h).trans (nearestEven_mem n d).1
  half := (nearestEven_half n hd).1
  tie := (nearestEven_half n hd).2
  quarter h hne hlt := absurd (h ▸ hl.resolve_right hne) hlt.not_ge

/-- A carry to the next exponent: half a place there is a quarter of the new one. -/
theorem isNearest_of_carry (hp : 2 ≤ prec) (hd : 0 < d) (hn : n < 2 ^ prec * d) (hm : nearestEven n d = 2 ^ prec)
    (hs : (n' = n ∧ d' = 2 * d) ∨ (n = 2 * n' ∧ d' = d)) : IsNearest prec (2 ^ (prec - 1)) n' d' least := by
  have hpow : 2 ^ prec = 2 * 2 ^ (prec - 1) := (mul_pow_sub_one (by omega) 2).symm
  obtain ⟨hhalf, -⟩ := nearestEven_half n hd
  rw [hm, hpow, Nat.mul_assoc] at hhalf
  rw [hpow, Nat.mul_assoc] at hn
  have hbelow : n' < 2 ^ (prec - 1) * d' ∧ 4 * (2 ^ (prec - 1) * d' - n') ≤ d' ∧ 0 < d' := by
    rcases hs with ⟨rfl, rfl⟩ | ⟨rfl, rfl⟩
    · rw [Nat.mul_left_comm]
      omega
    · omega
  obtain ⟨hlt, hquarter, hpos⟩ := hbelow
  exact {
    lt := Nat.pow_lt_pow_right Nat.one_lt_two (by omega)
    leading := .inl le_rfl
    half := by omega
    tie := by omega
    quarter := fun _ _ _ => hquarter }

/-- A carry is a fraction at or past the midpoint below `2 ^ prec`. -/
theorem le_of_nearestEven_carry (hd : 0 < d) (hm : nearestEven n d = 2 ^ prec) : (2 ^ (prec + 1) - 1) * d ≤ 2 * n := by
  obtain ⟨hhalf, -⟩ := nearestEven_half n hd
  rw [hm] at hhalf
  rw [pow_succ', Nat.sub_mul, Nat.mul_assoc]
  omega

end NearestEven

/-! ## Rounding to a format -/

/-- The exponent of the last place at which a fraction is rounded to an integer, gradual underflow included. -/
def roundExp (f : FloatFormat) (num den : Nat) : Int := max (floatExp f num den) f.minExp

/-- That integer: the significand before a carry. -/
def roundMan (f : FloatFormat) (num den : Nat) : Nat :=
  nearestEven (num * 2 ^ (-roundExp f num den).toNat) (den * 2 ^ (roundExp f num den).toNat)

section Round
variable {f : FloatFormat} {num den : Nat}

theorem round_zero (f : FloatFormat) (neg : Bool) (den : Nat) : Flt.round f neg 0 den = .fin neg 0 0 := by
  simp only [Flt.round, if_true]

/-- Rounding by its two tests: a carry to `2 ^ prec` moves to the next exponent, and past the greatest exponent is an infinity. -/
theorem round_of_pos (neg : Bool) (hn : 0 < num) : Flt.round f neg num den =
    if roundMan f num den = 2 ^ f.prec then
      if f.maxExp < roundExp f num den + 1 then .inf neg else .fin neg (2 ^ (f.prec - 1)) (roundExp f num den + 1)
    else if f.maxExp < roundExp f num den then .inf neg else .fin neg (roundMan f num den) (roundExp f num den) := by
  simp only [Flt.round, hn.ne', if_false]
  rw [← roundExp, ← roundMan]
  split <;> rfl

theorem minExp_le_roundExp : f.minExp ≤ roundExp f num den := le_max_right _ _

/-- Past the greatest exponent the fraction is at or past the overflow threshold, with a carry and without. -/
theorem threshold_le_of_carry (hd : 0 < den) (hc : roundMan f num den = 2 ^ f.prec) (ho : f.maxExp < roundExp f num den + 1) :
    (2 ^ (f.prec + 1) - 1) * (den * 2 ^ f.maxExp.toNat) ≤ 2 * (num * 2 ^ (-f.maxExp).toNat) := by
  rw [← Nat.mul_assoc 2]
  refine mul_scaled_le_of_exp_le hd (Int.lt_add_one_iff.1 ho) ?_
  rw [Nat.mul_assoc 2]
  exact le_of_nearestEven_carry (by positivity) hc

variable (hp : 2 ≤ f.prec) (hn : 0 < num) (hd : 0 < den)
include hp hn hd

/-- At that exponent the fraction is below `2 ^ prec` last places, and it has its leading bit unless the exponent is the least. -/
theorem scaled_lt_at_roundExp : num * 2 ^ (-roundExp f num den).toNat < 2 ^ f.prec * (den * 2 ^ (roundExp f num den).toNat) := by
  obtain ⟨-, hhi⟩ := floatExp_bounds f (by omega) hn hd
  have hexp : (2 : Rat) ^ floatExp f num den ≤ 2 ^ roundExp f num den := zpow_le_zpow_right₀ one_le_two (le_max_left _ _)
  rw [← not_le, mul_scaled_le_iff hd, not_le, Nat.cast_pow, Nat.cast_ofNat]
  exact hhi.trans_le (mul_le_mul_of_nonneg_left hexp (by positivity))

theorem le_scaled_at_roundExp (hl : f.minExp < roundExp f num den) :
    2 ^ (f.prec - 1) * (den * 2 ^ (roundExp f num den).toNat) ≤ num * 2 ^ (-roundExp f num den).toNat := by
  obtain ⟨hlo, -⟩ := floatExp_bounds f (by omega) hn hd
  have he : roundExp f num den = floatExp f num den := (max_choice _ _).resolve_right hl.ne'
  rw [mul_scaled_le_iff hd, he, Nat.cast_pow, Nat.cast_ofNat]
  exact hlo

theorem roundMan_lt_of_no_carry (hc : roundMan f num den ≠ 2 ^ f.prec) : roundMan f num den < 2 ^ f.prec := by
  have h : num * 2 ^ (-roundExp f num den).toNat / (den * 2 ^ (roundExp f num den).toNat) < 2 ^ f.prec :=
    (Nat.div_lt_iff_lt_mul (by positivity)).2 (scaled_lt_at_roundExp hp hn hd)
  exact lt_of_le_of_ne ((nearestEven_mem _ _).2.trans h) hc

theorem isNearest_roundMan (hc : roundMan f num den ≠ 2 ^ f.prec) :
    IsNearest f.prec (roundMan f num den) (num * 2 ^ (-roundExp f num den).toNat) (den * 2 ^ (roundExp f num den).toNat)
      (roundExp f num den = f.minExp) :=
  isNearest_nearestEven (by positivity) (roundMan_lt_of_no_carry hp hn hd hc)
    (minExp_le_roundExp.lt_or_eq'.imp_left (le_scaled_at_roundExp hp hn hd))

theorem isNearest_carried (hc : roundMan f num den = 2 ^ f.prec) :
    IsNearest f.prec (2 ^ (f.prec - 1)) (num * 2 ^ (-(roundExp f num den + 1)).toNat) (den * 2 ^ (roundExp f num den + 1).toNat)
      (roundExp f num den + 1 = f.minExp) :=
  isNearest_of_carry hp (by positivity) (scaled_lt_at_roundExp hp hn hd) hc (scaled_succ num den _)

theorem threshold_le_of_no_carry (hr : f.minExp ≤ f.maxExp) (ho : f.maxExp < roundExp f num den) :
    (2 ^ (f.prec + 1) - 1) * (den * 2 ^ f.maxExp.toNat) ≤ 2 * (num * 2 ^ (-f.maxExp).toNat) := by
  have hlead := mul_scaled_le_of_exp_le hd (Int.add_one_le_of_lt ho) (le_scaled_at_roundExp hp hn hd (hr.trans_lt ho))
  have hpow : 2 ^ (f.prec + 1) = 2 * (2 * 2 ^ (f.prec - 1)) := by rw [mul_pow_sub_one (by omega), pow_succ']
  rw [hpow, Nat.sub_mul, Nat.mul_assoc, Nat.mul_assoc]
  rcases scaled_succ num den f.maxExp with ⟨hnum, hden⟩ | ⟨hnum, hden⟩
  · rw [hnum, hden, Nat.mul_left_comm] at hlead
    omega
  · rw [hden] at hlead
    omega

/-- Rounding answers the nearest value of the format, or overflows at or past the threshold. -/
theorem round_spec (neg : Bool) (hr : f.minExp ≤ f.maxExp) :
    (∃ m e, Flt.round f neg num den = .fin neg m e ∧ f.minExp ≤ e ∧ e ≤ f.maxExp ∧
      IsNearest f.prec m (num * 2 ^ (-e).toNat) (den * 2 ^ e.toNat) (e = f.minExp)) ∨
    (Flt.round f neg num den = .inf neg ∧
      (2 ^ (f.prec + 1) - 1) * (den * 2 ^ f.maxExp.toNat) ≤ 2 * (num * 2 ^ (-f.maxExp).toNat)) := by
  have hmin : f.minExp ≤ roundExp f num den := minExp_le_roundExp
  rw [round_of_pos neg hn]
  split
  · next hc =>
    split
    · next ho => exact .inr ⟨rfl, threshold_le_of_carry hd hc ho⟩
    · next ho => exact .inl ⟨_, _, rfl, by omega, not_lt.1 ho, isNearest_carried hp hn hd hc⟩
  · next hc =>
    split
    · next ho => exact .inr ⟨rfl, threshold_le_of_no_carry hp hn hd hr ho⟩
    · next ho => exact .inl ⟨_, _, rfl, hmin, not_lt.1 ho, isNearest_roundMan hp hn hd hc⟩

end Round

/-- Settles O19: the nearest integer at the exponent of the leading bits, carried to the next exponent at `2 ^ prec`. -/
theorem roundingIsToNearestEven : Obligations.RoundingIsToNearestEven := by
  refine ⟨fun f neg num den hp hr hn hd => ?_, round_zero⟩
  simp only [Nat.mul_assoc]
  refine (round_spec hp hn hd neg hr).imp_left ?_
  rintro ⟨m, e, heq, hmin, hmax, hlt, hlead, hhalf, htie, hquarter⟩
  exact ⟨m, e, heq, hlt, hmin, hmax, hlead, hhalf, htie, fun hm he => hquarter hm he.ne'⟩

/-! ## The exact operations -/

theorem finiteValue_eq (neg : Bool) (m : Nat) (e : Int) : finiteValue neg m e = signedMan neg m * 2 ^ e := by
  cases neg <;> simp [finiteValue, signedMan]

/-- A number is its size with its sign; for 0 any sign will do. -/
theorem sign_mul_natAbs {i : Int} {neg : Bool} (h : i ≠ 0 → neg = decide (i < 0)) : (if neg then -1 else 1) * (i.natAbs : Rat) = i := by
  rw [Nat.cast_natAbs]
  rcases lt_trichotomy i 0 with hi | rfl | hi
  · rw [h hi.ne, abs_of_neg hi]
    simp [hi]
  · simp
  · rw [h hi.ne', abs_of_pos hi]
    simp [hi.le]

/-- The sum of two signed significands at the lesser of their exponents, as `Flt.add` takes it. -/
def alignedSum (a : Bool) (m : Nat) (e : Int) (b : Bool) (n : Nat) (g : Int) : Int :=
  signedMan a m * 2 ^ (e - min e g).toNat + signedMan b n * 2 ^ (g - min e g).toNat

/-- Its sign there. -/
def sumSign (a : Bool) (m : Nat) (e : Int) (b : Bool) (n : Nat) (g : Int) : Bool :=
  if alignedSum a m e b n g = 0 then a && b else decide (alignedSum a m e b n g < 0)

section Operations
variable (f : FloatFormat) (a b : Bool) (m n : Nat) (e g : Int)

theorem alignedSum_value : (alignedSum a m e b n g : Rat) * 2 ^ min e g = finiteValue a m e + finiteValue b n g := by
  have hpow {x : Int} (hx : min e g ≤ x) : (2 : Rat) ^ (x - min e g).toNat * 2 ^ min e g = 2 ^ x := by
    rw [two_pow_mul_zpow, Int.toNat_of_nonneg (Int.sub_nonneg_of_le hx), sub_add_cancel]
  rw [alignedSum, finiteValue_eq, finiteValue_eq]
  push_cast
  rw [add_mul, mul_assoc, mul_assoc, hpow (min_le_left e g), hpow (min_le_right e g)]

theorem add_fin : Flt.add f (.fin a m e) (.fin b n g) = Flt.round f (sumSign a m e b n g)
    ((alignedSum a m e b n g).natAbs * 2 ^ (min e g).toNat) (2 ^ (-min e g).toNat) := rfl

theorem div_fin (hn : n ≠ 0) : Flt.div f (.fin a m e) (.fin b n g) =
    Flt.round f (a != b) (m * 2 ^ (e - g).toNat) (n * 2 ^ (-(e - g)).toNat) := by
  simp only [Flt.div, hn, if_false]

theorem div_fin_zero : Flt.div f (.fin a m e) (.fin b 0 g) = if m = 0 then .nan else .inf (a != b) := by
  simp only [Flt.div, if_true]

theorem ofInt_value (i : Int) : ∃ neg m, Flt.ofInt i = .fin neg m 0 ∧ finiteValue neg m 0 = i := by
  refine ⟨_, _, rfl, ?_⟩
  rw [finiteValue, sign_mul_natAbs fun _ => rfl, zpow_zero, mul_one]

/-- The three operations as one rounding each of the exact result. -/
theorem mul_exact : ∃ num den : Nat, 0 < den ∧ (num : Rat) / den = (m * 2 ^ e) * (n * 2 ^ g) ∧
    Flt.mul f (.fin a m e) (.fin b n g) = Flt.round f (a != b) num den := by
  refine ⟨m * n * 2 ^ (e + g).toNat, 2 ^ (-(e + g)).toNat, Nat.two_pow_pos _, ?_, rfl⟩
  push_cast
  rw [mul_div_assoc, two_pow_toNat_div, zpow_add₀ two_ne_zero, mul_mul_mul_comm]

theorem div_exact (hn : n ≠ 0) : ∃ num den : Nat, 0 < den ∧ (num : Rat) / den = (m * 2 ^ e) / (n * 2 ^ g) ∧
    Flt.div f (.fin a m e) (.fin b n g) = Flt.round f (a != b) num den := by
  refine ⟨m * 2 ^ (e - g).toNat, n * 2 ^ (-(e - g)).toNat, Nat.mul_pos (Nat.pos_of_ne_zero hn) (Nat.two_pow_pos _), ?_,
    div_fin f a b m n e g hn⟩
  push_cast
  rw [mul_div_mul_comm, two_pow_toNat_div, zpow_sub₀ two_ne_zero, mul_div_mul_comm]

theorem add_exact : ∃ (num den : Nat) (neg : Bool), 0 < den ∧
    (if neg then -1 else 1) * ((num : Rat) / den) = finiteValue a m e + finiteValue b n g ∧ (num = 0 → neg = (a && b)) ∧
    Flt.add f (.fin a m e) (.fin b n g) = Flt.round f neg num den := by
  refine ⟨_, _, _, Nat.two_pow_pos _, ?_, fun h0 => ?_, add_fin f a b m n e g⟩
  · push_cast
    rw [mul_div_assoc, two_pow_toNat_div, ← mul_assoc, ← alignedSum_value]
    congr 1
    exact sign_mul_natAbs fun hs => if_neg hs
  · have hs := (Nat.mul_eq_zero.1 h0).resolve_right (Nat.two_pow_pos _).ne'
    exact if_pos (Int.natAbs_eq_zero.1 hs)

end Operations

/-- Settles O20: each operation's fraction is the exact result. -/
theorem operationsAreExactAndRoundedOnce : Obligations.OperationsAreExactAndRoundedOnce :=
  ⟨ofInt_value, fun f a b m n e g =>
    ⟨mul_exact f a b m n e g, div_exact f a b m n e g, div_fin_zero f a b m e g, add_exact f a b m n e g⟩⟩

end Sys2Proof.Machine
end

section
/-! PROOFS. The sequencer family (spec/43_sequencer.md): each operation in its cases (R91 to R96), the composites as their steps (R92, R97), the
transfers (R90), where HALT is read (R102), the stop sequence (R97, R134), the deadline schedule and the time of a divisor write (R100, R101),
the order of the divisors (R99), and what fairness gives (R173). -/

namespace Sys2Proof.Machine

/-! ## The operations of the Sequencer -/

section Operations
variable {s : State}

theorem exec_wait1_of_halt (hf : s.par.haltFirst = true) (hh : s.halt = true) : exec .wait1 s = .next { s with cp := .x1 } :=
  if_pos (by rw [hf, hh]; rfl)

theorem exec_waitdl_of_halt (hf : s.par.haltFirst = true) (hh : s.halt = true) : exec .waitdl s = .next { s with cp := .x1 } :=
  if_pos (by rw [hf, hh]; rfl)

theorem exec_setdiv_of_inRange (hr : divInRange s.par s.held = true) : exec .setdiv s = .next { s with
    tr := s.tr ++ s.stamped [.wr .clkdiv (divWord s.par s.held)]
    tClkdiv := taggedWrite s.par s.tClkdiv (divWord s.par s.held)
    cp := .s2 } := by
  simp only [exec, execSetdiv, hr, if_true]
  rfl

theorem exec_setdiv_of_outOfRange (hr : divInRange s.par s.held = false) :
    exec .setdiv s = .next (s.raise (.divisorRange s.held)).enterStop := by
  simp only [exec, execSetdiv, hr, Bool.false_eq_true, if_false]

theorem exec_next_of_pos (hc : 0 < s.count) : exec .next s = .next { s with
    held := s.readQ s.head
    head := (s.head + 1) % s.par.qmax
    count := s.count - 1
    nd := advance s.par s.nd
    cp := .s0 } := by
  simp only [exec, execNext, pull_of_pos hc]
  rfl

theorem exec_next_of_empty (hc : s.count = 0) : exec .next s = .next { s with cp := .x1 } := by
  simp only [exec, execNext, pull_of_empty hc]
  rfl

/-- A counter of at most a word's width is the number of the word read (R33, R55). -/
theorem toNat_ofNat_of_width {cw c : Nat} (hc : c < 2 ^ cw) (hcw : cw ≤ 32) : (BitVec.ofNat 32 c).toNat = c := by
  rw [BitVec.toNat_ofNat, Nat.mod_eq_of_lt (hc.trans_le (Nat.pow_le_pow_right (by decide) hcw))]

theorem divInRange_iff {p : Params} (hw : p.sourceWidths = true) (d : Word) : divInRange p d = true ↔ d.toNat < 2 ^ 24 := by
  simp only [Params.sourceWidths, decide_eq_true_eq] at hw
  obtain ⟨-, -, -, hdivw, -⟩ := hw
  rw [divInRange, hdivw, decide_eq_true_eq]

/-- A divisor below 2^24 stands whole under the tag (R53, R60). -/
theorem toNat_divWord {p : Params} (hw : p.sourceWidths = true) {d : Word} (hd : d.toNat < 2 ^ 24) :
    (divWord p d).toNat = p.tag.toNat * 2 ^ 24 + d.toNat := by
  have htag : p.tag.toNat < 2 ^ 8 := p.tag.isLt
  have hbits : (tagBits p).toNat = p.tag.toNat <<< 24 := by
    rw [tagBits, (tag_place hw).1, BitVec.toNat_shiftLeft, BitVec.toNat_setWidth, Nat.shiftLeft_eq, Nat.shiftLeft_eq]
    omega
  have hlow : ((divField d).setWidth 32).toNat = d.toNat := by
    rw [BitVec.toNat_setWidth, divField, BitVec.toNat_setWidth]
    omega
  rw [divWord, BitVec.toNat_or, hbits, hlow, ← Nat.shiftLeft_add_eq_or_of_lt hd, Nat.shiftLeft_eq]

end Operations

/-- Settles O24: the test of HALT, then the two cases of PULL. -/
theorem waitForTheFirstDivisor : Obligations.WaitForTheFirstDivisor := by
  intro s hf
  refine ⟨exec_wait1_of_halt hf, fun hh hc => exec_wait1_of_pos (by simp [hh]) hc, fun hh hc => ?_⟩
  rw [exec_wait1_of_empty (by simp [hh]) hc, hh]
  rfl

/-- Settles O26: the word read is the counter, and so is its count. -/
theorem readCounterIntoTheFirstDeadline : Obligations.ReadCounterIntoTheFirstDeadline := by
  intro s hc hcw
  refine ⟨BitVec.ofNat 32 s.cnt, toNat_ofNat_of_width hc hcw, ?_⟩
  rw [exec_rdcnt, countOf_ofNat hc hcw]
  rfl

/-- Settles O27: the test of HALT, then the deadline against the counter read. -/
theorem waitForTheDeadline : Obligations.WaitForTheDeadline := by
  intro s hf hc hcw
  refine ⟨exec_waitdl_of_halt hf, fun hh => ⟨BitVec.ofNat 32 s.cnt, toNat_ofNat_of_width hc hcw, ?_⟩⟩
  rw [exec_waitdl_of_read (by simp [hh]), countOf_ofNat hc hcw, hh]
  rfl

/-- Settles O28: the two cases of SETDIV, split at 2^24. -/
theorem setdivWritesTheHeldDivisorOrFaults : Obligations.SetdivWritesTheHeldDivisorOrFaults := by
  intro s hw
  refine ⟨fun hd => ⟨divWord s.par s.held, toNat_divWord hw hd, ?_⟩, fun hd => ?_⟩
  · rw [exec_setdiv_of_inRange ((divInRange_iff hw _).2 hd), taggedWrite_divWord hw, divField,
      BitVec.setWidth_eq_extractLsb' (by decide)]
  · have hr : divInRange s.par s.held = false := Bool.eq_false_iff.2 (mt (divInRange_iff hw _).1 (Nat.not_lt.2 hd))
    exact ⟨_, exec_setdiv_of_outOfRange hr, rfl, s.mem_raise_faults (.divisorRange s.held)⟩

/-- Settles O29, by the two cases of PULL. -/
theorem nextDivisorAndDeadlineOrUnderflow : Obligations.NextDivisorAndDeadlineOrUnderflow :=
  fun _ => ⟨exec_next_of_pos, exec_next_of_empty⟩

/-! ## The composites and the stop sequence -/

/-- The Sequencer's turn is the operation of the control point it is at (R50). -/
theorem takeTurn_of_point {s : State} {c : ControlPoint} {i : Instr} (hc : s.cp = c) (hi : decodePoint c = .ok i) :
    takeTurn .sequencer s = exec i s :=
  perform_of_ok (x := .seqAt s.cp) (by rw [hc]; exact hi)

/-- A run of the Sequencer alone, its next operation first. -/
theorem runUnder_sequencer_succ {s : State} {c : ControlPoint} {i : Instr} (hc : s.cp = c) (hi : decodePoint c = .ok i) (k n : Nat) :
    runUnder (fun _ => .sequencer) k (n + 1) s = andThen (exec i s) (runUnder (fun _ => .sequencer) (k + 1) n) := by
  rw [runUnder_succ, takeTurn_of_point hc hi]

/-- From E1 four steps of the Sequencer are ENABLE (R92, R110). -/
theorem runUnder_enable {s : State} (hc : s.cp = .e1) : runUnder (fun _ => .sequencer) 0 4 s = exec .enable s := by
  rw [runUnder_sequencer_succ hc rfl, exec_enable, exec_fselClk, pinWrite_next, andThen_next, andThen_next,
    runUnder_sequencer_succ rfl rfl, exec_ctlReset, controlWrite_next, andThen_next, andThen_next,
    runUnder_sequencer_succ rfl rfl, exec_ctlEnable, controlWrite_next, andThen_next, andThen_next,
    runUnder_sequencer_succ rfl rfl]
  rfl

/-- From X1 two steps of the Sequencer are DISABLE (R97, R116). -/
theorem runUnder_disable {s : State} (hc : s.cp = .x1) : runUnder (fun _ => .sequencer) 0 2 s = exec .disable s := by
  rw [runUnder_sequencer_succ hc rfl, exec_disable, exec_ctlOff, controlWrite_next, andThen_next, andThen_next,
    runUnder_sequencer_succ rfl rfl]
  rfl

/-- Settles O36: the two runs of the Sequencer alone, each turn an operation of the composite. -/
theorem compositesAreTheirSteps : Obligations.CompositesAreTheirSteps :=
  fun _ => ⟨runUnder_enable, runUnder_disable⟩

/-- W_OFF clears the shadow of CLKCTL (R59, R117). -/
theorem taggedWrite_wOff {p : Params} (hp : p.legal = true) (old : Word24) : taggedWrite p old (wOff p) = 0#24 := by
  rw [taggedWrite, wOff, if_pos (tagOf_ctlWord hp fit_wOff)]
  simp only [ctlWord, BitVec.or_assoc, setWidth_tagBits_or (sourceWidths_of_legal hp)]
  simp

/-- Settles O30: the first two steps are DISABLE, and the third is SETHALT at the X3 they leave. -/
theorem stopSequenceSwitchesOffThenSetsHalt : Obligations.StopSequenceSwitchesOffThenSetsHalt := by
  refine ⟨exec_sethalt, fun s hp hc => ⟨runUnder_disable hc, ?_⟩⟩
  rw [runUnder_snoc, runUnder_disable hc, exec_disable, exec_ctlOff, controlWrite_next, andThen_next, exec_fselIn, pinWrite_next,
    andThen_next, takeTurn_of_point rfl rfl, exec_sethalt, taggedWrite_wOff hp, List.append_assoc]
  rfl

/-! ## The transfers of the control point -/

/-- The Sequencer's step takes a listed transfer (R90). -/
theorem SeqStep.mem_successors {p : Params} {halted : Bool} {c c' : ControlPoint} {es : List BusEvent} (h : SeqStep p halted c es c') :
    c' ∈ successors c := by
  cases h with
  | stopped hc =>
    simp only [List.mem_cons, List.not_mem_nil, or_false] at hc
    rcases hc with rfl | rfl | rfl | rfl <;> decide
  | waitdl v hh hc =>
    simp only [List.mem_cons, List.not_mem_nil, or_false] at hc
    rcases hc with rfl | rfl | rfl <;> decide
  | waiting | fetched | fselClk | ctlReset | ctlEnable | ctlMode | rdcnt | setdiv | next | ctlOff | fselIn | sethalt => decide

/-- Settles O46: a step leaves `cp` or is the Sequencer's. -/
theorem onlyTheListedTransfersHappen : Obligations.OnlyTheListedTransfersHappen := by
  intro s t h
  rcases step_seqStep h with ⟨hc, -⟩ | ⟨es, hs, -⟩
  · exact .inl hc
  · exact .inr hs.mem_successors

/-! ## Where HALT is not read -/

/-- The state with HALT set. -/
def State.withHalt (s : State) : State := { s with halt := true }

/-- Away from W0 and S0 the operation of a control point commutes with setting HALT (R92, R95, R102). -/
theorem exec_withHalt {s : State} {i : Instr} (hi : decodePoint s.cp = .ok i) (hw : s.cp ≠ .w0) (hs : s.cp ≠ .s0) :
    exec i s.withHalt = mapNext State.withHalt (exec i s) := by
  generalize s.cp = c at hi hw hs
  cases c <;> cases hi
  case w0 => exact absurd rfl hw
  case s0 => exact absurd rfl hs
  case s1 =>
    cases hr : divInRange s.par s.held with
    | true => rw [exec_setdiv_of_inRange hr, exec_setdiv_of_inRange (s := s.withHalt) hr]; rfl
    | false => rw [exec_setdiv_of_outOfRange hr, exec_setdiv_of_outOfRange (s := s.withHalt) hr]; rfl
  case s2 =>
    rcases Nat.eq_zero_or_pos s.count with hc | hc
    · rw [exec_next_of_empty hc, exec_next_of_empty (s := s.withHalt) hc]; rfl
    · rw [exec_next_of_pos hc, exec_next_of_pos (s := s.withHalt) hc]; rfl
  all_goals rfl

/-- Settles O50: the Sequencer's turn is its control point's operation, or at DONE none. -/
theorem haltIsObservedAtLoopBoundariesOnly : Obligations.HaltIsObservedAtLoopBoundariesOnly := by
  intro s hw hs
  cases hi : decodePoint s.cp with
  | error r =>
    have hc := eq_done_of_decodePoint_error hi
    exact ⟨s, takeTurn_sequencer_of_done hc, takeTurn_sequencer_of_done (s := s.withHalt) hc⟩
  | ok i =>
    obtain ⟨t, ht⟩ := takeTurn_sequencer_completes s
    refine ⟨t, ht, ?_⟩
    rw [takeTurn_of_point rfl hi] at ht
    exact (takeTurn_of_point (s := s.withHalt) rfl hi).trans ((exec_withHalt hi hw hs).trans (congrArg (mapNext _) ht))

/-! ## The Sequencer moves, or its elements stay -/

/-- The operations of the Producer, the HaltSource and the Counter (R42, R50, R63). -/
inductive OtherAgents : Instr → Prop
  | push (d : Word) : OtherAgents (.push d)
  | conv (v : Int) : OtherAgents (.conv v)
  | produce (late : Bool) : OtherAgents (.produce late)
  | haltreq : OtherAgents .haltreq
  | tick : OtherAgents .tick

/-- What a move of another agent leaves: the parameters and the Sequencer's elements as they were, and the queue with at most one entry more
behind the others (R70, R121, R151). -/
structure State.SequencerKept (s t : State) : Prop where
  par : t.par = s.par
  cp : t.cp = s.cp
  held : t.held = s.held
  nd : t.nd = s.nd
  tPinfsel : t.tPinfsel = s.tPinfsel
  tClkctl : t.tClkctl = s.tClkctl
  tr : t.tr = s.tr
  contents : t.contents = s.contents ∨ ∃ d, t.contents = s.contents ++ [d]

/-- One atomic transition as the Sequencer's elements see it: the operation of the control point, or nothing (R42, R43). -/
def State.Moves (s t : State) : Prop := (∃ i, decodePoint s.cp = .ok i ∧ exec i s = .next t) ∨ s.SequencerKept t

section Moves
variable {s t : State}

theorem State.SequencerKept.refl (s : State) : s.SequencerKept s := ⟨rfl, rfl, rfl, rfl, rfl, rfl, rfl, .inl rfl⟩

theorem State.SequencerKept.events (h : s.SequencerKept t) : t.events = s.events := State.events_of_tr_eq h.tr

/-- PUSH appends its value or leaves the queue (R70). -/
theorem contents_push_cases (d : Word) (s : State) :
    (push d s).2.contents = s.contents ∨ ∃ v, (push d s).2.contents = s.contents ++ [v] := by
  by_cases hc : s.count < s.par.qmax
  · exact .inr ⟨d, contents_push d hc⟩
  · exact .inl (by rw [push_of_full d hc])

theorem contents_produce_cases {late : Bool} (h : exec (.produce late) s = .next t) :
    t.contents = s.contents ∨ ∃ d, t.contents = s.contents ++ [d] := by
  rcases exec_produce_cases h with ⟨-, rfl⟩ | ⟨-, -, -, rfl⟩ | ⟨-, rfl⟩ | ⟨-, -, -, -, -, rfl⟩ | ⟨-, -, v, inp, inPos, rfl⟩ |
    ⟨-, d, -, -, rfl⟩ | ⟨-, -, -, rfl⟩ | ⟨-, -, -, rfl⟩
  · exact .inl rfl
  · exact .inl rfl
  · exact .inl rfl
  · exact .inl rfl
  · obtain ⟨pend, pcp, faults, -, hv⟩ := takeSample_frame v { s with inp := inp, inPos := inPos }
    rw [hv]
    exact .inl rfl
  · exact contents_push_cases d s
  · exact .inl rfl
  · exact .inl rfl

theorem OtherAgents.contents {i : Instr} (hi : OtherAgents i) (h : exec i s = .next t) :
    t.contents = s.contents ∨ ∃ d, t.contents = s.contents ++ [d] := by
  cases hi with
  | push d => cases h; exact contents_push_cases d s
  | produce late => exact contents_produce_cases h
  | conv | haltreq | tick => cases exec_frame h; exact .inl rfl

theorem OtherAgents.kept {i : Instr} (hi : OtherAgents i) (h : exec i s = .next t) : s.SequencerKept t := by
  have hc := hi.contents h
  cases hi with
  | push | conv | produce | haltreq | tick =>
    cases exec_frame h
    exact ⟨rfl, rfl, rfl, rfl, rfl, rfl, rfl, hc⟩

theorem step_moves (h : step s = .next t) : ∃ script turn, State.Moves { s with script := script, turn := turn } t := by
  obtain ⟨u, ⟨script, turn, rfl⟩, rfl | hi | ⟨d, h⟩ | h | h | ⟨late, h⟩ | ⟨-, v, -, h⟩⟩ := step_cases h
  · exact ⟨script, turn, .inr (.refl _)⟩
  · exact ⟨script, turn, .inl hi⟩
  · exact ⟨script, turn, .inr ((OtherAgents.push d).kept h)⟩
  · exact ⟨script, turn, .inr (OtherAgents.haltreq.kept h)⟩
  · exact ⟨script, turn, .inr (OtherAgents.tick.kept h)⟩
  · exact ⟨script, turn, .inr ((OtherAgents.produce late).kept h)⟩
  · exact ⟨script, turn, .inr ((OtherAgents.conv v).kept h)⟩

theorem takeTurn_sequencer_moves (h : takeTurn .sequencer s = .next t) : s.Moves t := by
  rw [takeTurn_sequencer] at h
  split at h
  · exact .inl ⟨_, ‹_›, h⟩
  · cases h
    exact .inr (.refl s)

theorem takeTurn_other_kept {w : Turn} (hw : w ≠ .sequencer) (h : takeTurn w s = .next t) : s.SequencerKept t := by
  rcases perform_cases h with rfl | ⟨x, i, hx, hd, he⟩
  · exact .refl _
  cases hx
  cases w with
  | sequencer => exact absurd rfl hw
  | producer | producerTimeout =>
    obtain rfl := eq_produce_of_prodAt hd
    exact (OtherAgents.produce _).kept he
  | counter => cases hd; exact OtherAgents.tick.kept he
  | haltSource => cases hd; exact OtherAgents.haltreq.kept he

theorem takeTurn_moves {w : Turn} (h : takeTurn w s = .next t) : s.Moves t := by
  by_cases hw : w = .sequencer
  · subst hw
    exact takeTurn_sequencer_moves h
  · exact .inr (takeTurn_other_kept hw h)

end Moves

/-! ## The stop sequence -/

section Stop
variable {s t : State}

theorem State.SequencerKept.stopInv (h : s.SequencerKept t) (hs : s.StopInv) : t.StopInv := by
  simp only [State.StopInv, State.outputDisabled, State.clockEnabled, h.events, h.cp, h.par, h.tPinfsel, h.tClkctl] at hs ⊢
  exact hs

/-- The control points of the stop sequence after its first write. -/
def switchedOff : List ControlPoint := [.x2, .x3, .done]

theorem State.stopInv_of_not_switchedOff (h : t.cp ∉ switchedOff) : t.StopInv := by
  unfold State.StopInv
  cases hc : t.cp with
  | x2 | x3 | done => exact absurd (by rw [hc]; decide) h
  | w0 | e1 | e2 | e3 | e4 | e5 | s0 | s1 | s2 | x1 => trivial

/-- They are entered from X1 alone (R90). -/
theorem not_switchedOff_of_mem_successors {c : ControlPoint} (h : c ∉ [.x1, .x2, .x3]) : ∀ c' ∈ successors c, c' ∉ switchedOff := by
  cases c with
  | x1 | x2 | x3 => exact absurd (by decide) h
  | w0 | e1 | e2 | e3 | e4 | e5 | s0 | s1 | s2 | done => decide

/-- A cleared CLKCTL and the input function are the disabled output (R119). -/
theorem State.outputDisabled_of_off (hpin : pinField s.par s.tPinfsel = fselIn) (hctl : s.tClkctl = 0#24) : s.outputDisabled = true := by
  simp [State.outputDisabled, State.clockEnabled, hpin, hctl]

/-- Each operation of the stop sequence brings the trace and the shadow as far as its successor says (R97, R116). -/
theorem exec_keeps_stopInv {i : Instr} (hp : s.par.legal = true) (hi : decodePoint s.cp = .ok i) (hs : s.StopInv)
    (he : exec i s = .next t) : t.StopInv := by
  by_cases hc : s.cp ∈ [.x1, .x2, .x3]
  case neg =>
    obtain ⟨es, hstep, -⟩ := exec_seqStep hi he
    exact State.stopInv_of_not_switchedOff (not_switchedOff_of_mem_successors hc _ hstep.mem_successors)
  simp only [List.mem_cons, List.not_mem_nil, or_false] at hc
  rcases hc with hc | hc | hc <;> rw [hc] at hi <;> cases hi <;> simp only [State.StopInv, hc] at hs
  · rw [exec_ctlOff, controlWrite_next] at he
    cases he
    refine ⟨⟨busWrites s.events, ?_⟩, taggedWrite_wOff hp _⟩
    rw [State.events_of_tr_append rfl, busWrites_append]
    rfl
  · obtain ⟨⟨before, hb⟩, hctl⟩ := hs
    rw [exec_fselIn, pinWrite_next] at he
    cases he
    have hpin := pinField_fselWord_of_legal hp s.tPinfsel fselIn
    refine ⟨⟨before, _, ?_, hpin⟩, hctl, State.outputDisabled_of_off hpin hctl⟩
    rw [State.events_of_tr_append rfl, busWrites_append, hb, List.append_assoc]
    rfl
  · cases he
    exact hs

theorem State.Moves.keeps_stopInv (hp : s.par.legal = true) (hs : s.StopInv) (h : s.Moves t) : t.StopInv := by
  rcases h with ⟨i, hi, he⟩ | hk
  · exact exec_keeps_stopInv hp hi hs he
  · exact hk.stopInv hs

theorem State.StopInv.disabled_of_done (h : s.StopInv) (hc : s.cp = .done) : s.outputDisabled = true ∧
    ∃ before v, busWrites s.events = before ++ [(.clkctl, wOff s.par), (.pinfsel, v)] ∧ pinField s.par v = fselIn := by
  simp only [State.StopInv, hc] at h
  obtain ⟨hwrites, -, hdis⟩ := h
  exact ⟨hdis, hwrites⟩

end Stop

/-- Settles O54: a step is a move of the Sequencer or keeps its elements, and each of its moves keeps the invariant. -/
theorem doneMeansTheOutputWasSwitchedOff : Obligations.DoneMeansTheOutputWasSwitchedOff := by
  refine ⟨fun s t hp hs h => ?_, fun s => State.StopInv.disabled_of_done⟩
  obtain ⟨script, turn, hm⟩ := step_moves h
  exact State.Moves.keeps_stopInv (s := { s with script := script, turn := turn }) hp hs hm

/-! ## The deadline schedule -/

/-- The control points before the first read of COUNTER has been made. -/
def startPoints : List ControlPoint := [.w0, .e1, .e2, .e3, .e4, .e5]

/-- The control points of the stop sequence. -/
def stopPoints : List ControlPoint := [.x1, .x2, .x3, .done]

/-- The Sequencer's step as the schedule sees it: with the counter at `cnt` and the deadline `nd`, the events it appends, the
control point and the deadline it leaves (R93 to R96). -/
inductive TimedStep (p : Params) (cnt nd : Nat) : ControlPoint → List BusEvent → ControlPoint → Nat → Prop
  | starting {c c' es} (hc : c ∈ startPoints) (hc' : c' ∈ startPoints) (hr : counterReads es = []) (hw : divisorWords es = []) :
    TimedStep p cnt nd c es c' nd
  | stopping {c c' es} (hc' : c' ∈ stopPoints) (hw : divisorWords es = []) : TimedStep p cnt nd c es c' nd
  | rdcnt : TimedStep p cnt nd .e5 [.rd .counter (BitVec.ofNat 32 cnt)] .s0 (countOf p (BitVec.ofNat 32 cnt))
  | spin : TimedStep p cnt nd .s0 [.rd .counter (BitVec.ofNat 32 cnt)] .s0 nd
  | due (hr : reached p.cw (countOf p (BitVec.ofNat 32 cnt)) nd = true) :
    TimedStep p cnt nd .s0 [.rd .counter (BitVec.ofNat 32 cnt)] .s1 nd
  | setdiv (w : Word) : TimedStep p cnt nd .s1 [.wr .clkdiv w] .s2 nd
  | next : TimedStep p cnt nd .s2 [] .s0 (advance p nd)

/-- The operation of a control point makes the step of that control point. -/
theorem exec_timedStep {i : Instr} {s t : State} (hi : decodePoint s.cp = .ok i) (he : exec i s = .next t) :
    ∃ es, TimedStep s.par s.cnt s.nd s.cp es t.cp t.nd ∧ t.events = s.events ++ es := by
  have quiet : s.events = s.events ++ [] := (List.append_nil _).symm
  generalize hc : s.cp = c at hi
  cases c <;> cases hi
  case w0 =>
    rcases exec_wait1_cases he with ⟨-, -, rfl⟩ | ⟨-, -, rfl⟩ | ⟨-, -, rfl⟩
    · exact ⟨_, .stopping (by simp [stopPoints]) rfl, quiet⟩
    · exact ⟨_, .starting (by decide) (by simp [startPoints]) rfl rfl, quiet⟩
    · exact ⟨_, .starting (by decide) (by simp [startPoints]) rfl rfl, quiet⟩
  case s0 =>
    rcases exec_waitdl_cases he with ⟨-, -, rfl⟩ | ⟨-, hr, rfl⟩ | ⟨-, -, rfl⟩
    · exact ⟨_, .stopping (by simp [stopPoints]) rfl, quiet⟩
    · exact ⟨_, .due hr, State.events_of_tr_append rfl⟩
    · refine ⟨[counterRead s], ?_, State.events_of_tr_append rfl⟩
      cases s.halt with
      | true => exact .stopping (by simp [stopPoints]) rfl
      | false => exact .spin
  case s1 =>
    rcases exec_setdiv_cases he with ⟨-, rfl⟩ | ⟨-, rfl⟩
    · exact ⟨_, .setdiv _, State.events_of_tr_append rfl⟩
    · exact ⟨_, .stopping (by simp [stopPoints]) rfl, quiet⟩
  case s2 =>
    rcases exec_next_cases he with ⟨-, rfl⟩ | ⟨-, rfl⟩
    · exact ⟨_, .next, quiet⟩
    · exact ⟨_, .stopping (by simp [stopPoints]) rfl, quiet⟩
  case e1 | e2 | e3 | e4 =>
    simp only [exec_fselClk, exec_ctlReset, exec_ctlEnable, exec_ctlMode, pinWrite_next, controlWrite_next] at he
    cases he
    exact ⟨_, .starting (by decide) (by simp [startPoints]) rfl rfl, State.events_of_tr_append rfl⟩
  case e5 => cases he; exact ⟨_, .rdcnt, State.events_of_tr_append rfl⟩
  case x1 | x2 =>
    simp only [exec_ctlOff, exec_fselIn, pinWrite_next, controlWrite_next] at he
    cases he
    exact ⟨_, .stopping (by simp [stopPoints]) rfl, State.events_of_tr_append rfl⟩
  case x3 => cases he; exact ⟨_, .stopping (by simp [stopPoints]) rfl, quiet⟩

/-- A step leaves the schedule's elements, or is the Sequencer's. -/
theorem step_timedStep {s t : State} (h : step s = .next t) :
    (t.cp = s.cp ∧ t.events = s.events ∧ t.nd = s.nd) ∨
      ∃ es, TimedStep s.par s.cnt s.nd s.cp es t.cp t.nd ∧ t.events = s.events ++ es := by
  obtain ⟨script, turn, ⟨i, hi, he⟩ | hk⟩ := step_moves h
  · exact .inr (exec_timedStep (s := { s with script := script, turn := turn }) hi he)
  · exact .inl ⟨hk.cp, hk.events, hk.nd⟩

/-- ND on the schedule of the trace `es`, as far as the control point has come. -/
def scheduleAt (p : Params) (es : List BusEvent) (nd : Nat) : ControlPoint → Prop
  | .w0 | .e1 | .e2 | .e3 | .e4 | .e5 => counterReads es = [] ∧ divisorWords es = []
  | .s0 | .s1 => ∃ c, (counterReads es).head? = some c ∧ nd = deadline p (countOf p c) (divisorWords es).length
  | .s2 =>
    ∃ c k, (counterReads es).head? = some c ∧ (divisorWords es).length = k + 1 ∧ nd = deadline p (countOf p c) k
  | .x1 | .x2 | .x3 | .done => True

theorem State.scheduleInv_iff (s : State) : s.ScheduleInv ↔ scheduleAt s.par s.events s.nd s.cp := by
  unfold State.ScheduleInv scheduleAt
  cases s.cp <;> exact Iff.rfl

section Schedule
variable {p : Params} {evs es : List BusEvent} {cnt nd nd' : Nat} {c c' : ControlPoint}

theorem scheduleAt_of_start (hc : c ∈ startPoints) : scheduleAt p evs nd c ↔ counterReads evs = [] ∧ divisorWords evs = [] := by
  simp only [startPoints, List.mem_cons, List.not_mem_nil, or_false] at hc
  rcases hc with rfl | rfl | rfl | rfl | rfl | rfl <;> exact Iff.rfl

theorem scheduleAt_of_stop (hc : c ∈ stopPoints) : scheduleAt p evs nd c := by
  simp only [stopPoints, List.mem_cons, List.not_mem_nil, or_false] at hc
  rcases hc with rfl | rfl | rfl | rfl <;> trivial

/-- The first deadline is the count read, and each next one is PERIOD after the last (R41, R100). -/
theorem deadline_zero (p : Params) (v : Word) : deadline p (countOf p v) 0 = countOf p v := by
  simp [deadline, countOf]

theorem deadline_succ (p : Params) (nd0 k : Nat) : deadline p nd0 (k + 1) = advance p (deadline p nd0 k) := by
  rw [advance, deadline, deadline, Nat.mod_add_mod, Nat.add_assoc, Nat.succ_mul]

/-- The first read of COUNTER stays the first. -/
theorem head?_counterReads_append {v : Word} (h : (counterReads evs).head? = some v) :
    (counterReads (evs ++ es)).head? = some v := by
  rw [counterReads_append, List.head?_append, h, Option.some_or]

/-- The Sequencer's step keeps ND on the schedule: a write counts one divisor more, and ND follows it in NEXT (R96). -/
theorem TimedStep.keeps_schedule (h : TimedStep p cnt nd c es c' nd') (hs : scheduleAt p evs nd c) : scheduleAt p (evs ++ es) nd' c' := by
  cases h with
  | starting hc hc' hr hw =>
    obtain ⟨hreads, hwords⟩ := (scheduleAt_of_start hc).1 hs
    exact (scheduleAt_of_start hc').2 ⟨by rw [counterReads_append, hreads, hr]; rfl, by rw [divisorWords_append, hwords, hw]; rfl⟩
  | stopping hc' => exact scheduleAt_of_stop hc'
  | rdcnt =>
    obtain ⟨hreads, hwords⟩ := hs
    refine ⟨_, by rw [counterReads_append, hreads]; rfl, ?_⟩
    rw [divisorWords_append, hwords]
    exact (deadline_zero p _).symm
  | spin | due =>
    obtain ⟨c0, hc0, hnd⟩ := hs
    refine ⟨c0, head?_counterReads_append hc0, ?_⟩
    rw [divisorWords_append, List.length_append]
    exact hnd
  | setdiv w =>
    obtain ⟨c0, hc0, hnd⟩ := hs
    refine ⟨c0, _, head?_counterReads_append hc0, ?_, hnd⟩
    rw [divisorWords_append, List.length_append]
    rfl
  | next =>
    obtain ⟨c0, k, hc0, hk, hnd⟩ := hs
    refine ⟨c0, head?_counterReads_append hc0, ?_⟩
    rw [List.append_nil, hk, deadline_succ, hnd]

end Schedule

/-- Settles O55: each move of the Sequencer keeps ND on the schedule, and no other agent has ND or the trace. -/
theorem deadlinesDoNotDrift : Obligations.DeadlinesDoNotDrift := by
  intro s t hs h
  rw [State.scheduleInv_iff] at hs ⊢
  rw [(step_grows h).par]
  rcases step_timedStep h with ⟨hc, he, hn⟩ | ⟨es, ht, he⟩
  · rwa [hc, he, hn]
  · rw [he]
    exact ht.keeps_schedule hs

/-! ## The time of a divisor write -/

/-- A divisor written after the trace `es` is not early: the last read of COUNTER found its deadline reached (R101). -/
def Due (p : Params) (es : List BusEvent) : Prop :=
  ∃ c0 c, (counterReads es).head? = some c0 ∧ (counterReads es).getLast? = some c ∧
    reached p.cw (countOf p c) (deadline p (countOf p c0) (divisorWords es).length) = true

/-- Every divisor of the trace is written when due. -/
def DueWrites (p : Params) (es : List BusEvent) : Prop :=
  ∀ before w after, es = before ++ .wr .clkdiv w :: after → Due p before

theorem State.timely_iff (s : State) : s.Timely ↔ DueWrites s.par s.events := Iff.rfl

/-- At S1 the last read of COUNTER found ND reached. -/
def reachedAt (p : Params) (es : List BusEvent) (nd : Nat) (c : ControlPoint) : Prop :=
  c = .s1 → ∃ v, (counterReads es).getLast? = some v ∧ reached p.cw (countOf p v) nd = true

theorem State.reachedInv_iff (s : State) : s.ReachedInv ↔ reachedAt s.par s.events s.nd s.cp := Iff.rfl

section Timely
variable {p : Params} {evs es : List BusEvent} {cnt nd nd' : Nat} {c c' : ControlPoint}

/-- A divisor write of a longer trace is one of the shorter, or one of those appended. -/
theorem DueWrites.append (h : DueWrites p evs) (hes : ∀ before w after, es = before ++ .wr .clkdiv w :: after → Due p (evs ++ before)) :
    DueWrites p (evs ++ es) := by
  intro before w after heq
  rcases List.append_eq_append_iff.1 heq with ⟨more, rfl, hes'⟩ | ⟨more, hevs, hes'⟩
  · exact hes _ _ _ hes'
  · cases more with
    | nil =>
      have hd := hes [] w after hes'.symm
      rwa [hevs, List.append_nil, List.append_nil] at hd
    | cons e more =>
      cases hes'
      exact h _ _ _ hevs

theorem DueWrites.append_of_no_divisor (h : DueWrites p evs) (hes : divisorWords es = []) : DueWrites p (evs ++ es) :=
  h.append fun before w after heq => by simp [heq, divisorWords] at hes

theorem DueWrites.append_divisor (h : DueWrites p evs) (hd : Due p evs) (w : Word) : DueWrites p (evs ++ [.wr .clkdiv w]) :=
  h.append fun before w' after heq => by
    cases before with
    | nil => rwa [List.append_nil]
    | cons e before => simp at heq

theorem reachedAt_of_timedStep (h : TimedStep p cnt nd c es c' nd') : reachedAt p (evs ++ es) nd' c' := by
  intro hc
  cases h with
  | starting _ hc' => exact absurd (hc ▸ hc') (by decide)
  | stopping hc' => exact absurd (hc ▸ hc') (by decide)
  | due hr => exact ⟨_, by rw [counterReads_append]; exact List.getLast?_concat, hr⟩
  | rdcnt | spin | setdiv | next => cases hc

theorem due_of_reachedAt (hs : scheduleAt p evs nd .s1) (hr : reachedAt p evs nd .s1) : Due p evs := by
  obtain ⟨c0, hc0, rfl⟩ := hs
  obtain ⟨v, hv, hr⟩ := hr rfl
  exact ⟨c0, v, hc0, hv, hr⟩

theorem TimedStep.keeps_dueWrites (h : TimedStep p cnt nd c es c' nd') (hs : scheduleAt p evs nd c) (hr : reachedAt p evs nd c)
    (ht : DueWrites p evs) : DueWrites p (evs ++ es) := by
  cases h with
  | starting _ _ _ hw | stopping _ hw => exact ht.append_of_no_divisor hw
  | rdcnt | spin | due | next => exact ht.append_of_no_divisor rfl
  | setdiv w => exact ht.append_divisor (due_of_reachedAt hs hr) w

end Timely

/-- Settles O56: the one step that writes a divisor starts at S1, where the schedule and the last read make it due. -/
theorem noDivisorIsWrittenEarly : Obligations.NoDivisorIsWrittenEarly := by
  intro s t hs hr ht h
  rw [State.scheduleInv_iff] at hs
  rw [State.reachedInv_iff] at hr ⊢
  rw [State.timely_iff] at ht ⊢
  rw [(step_grows h).par]
  rcases step_timedStep h with ⟨hc, he, hn⟩ | ⟨es, hm, he⟩
  · rw [hc, he, hn]
    exact ⟨hr, ht⟩
  · rw [he]
    exact ⟨reachedAt_of_timedStep hm, hm.keeps_dueWrites hs hr ht⟩

/-! ## The order of the divisors -/

/-- The divisor pulled and not yet written (R91, R96). -/
def carriedAt (held : Word) : ControlPoint → List Word24
  | .e1 | .e2 | .e3 | .e4 | .e5 | .s0 | .s1 => [divField held]
  | .w0 | .s2 | .x1 | .x2 | .x3 | .done => []

theorem State.pipeline_eq (s : State) : s.pipeline = s.written ++ carriedAt s.held s.cp ++ s.contents.map divField := by
  unfold State.pipeline carriedAt
  cases s.cp <;> rfl

section Order
variable {s t : State}

theorem State.written_append {es : List BusEvent} (h : t.events = s.events ++ es) :
    t.written = s.written ++ (divisorWords es).map divField := by
  rw [State.written, h, divisorWords_append, List.map_append, State.written]

theorem State.stopping_iff (s : State) : s.stopping = true ↔ s.cp ∈ stopPoints := by
  unfold State.stopping
  cases s.cp <;> decide

theorem State.written_of_no_divisor {es : List BusEvent} (h : t.events = s.events ++ es) (hes : divisorWords es = []) :
    t.written = s.written := by
  rw [State.written_append h, hes, List.map_nil, List.append_nil]

/-- A pulled divisor goes from the queue's front into the Sequencer's hand, where none was (R71, R91, R96). -/
theorem map_contents_pull (hi : s.Inv) (hc : 0 < s.count) : s.contents.map divField =
    divField (s.readQ s.head) ::
      (State.contents { s with head := (s.head + 1) % s.par.qmax, count := s.count - 1 }).map divField := by
  rw [contents_pull hi.head hc, pull_of_pos hc, List.map_cons]

/-- The divisor taken in hand is the next of the list. -/
theorem append_carried (written queued : List Word24) (d : Word24) : written ++ [d] ++ queued = written ++ [] ++ d :: queued := by simp

/-- Each operation of the Sequencer passes the divisors on in their order, up to its stop (R99). -/
theorem exec_keeps_pipeline {i : Instr} (hs : s.Inv) (hi : decodePoint s.cp = .ok i) (he : exec i s = .next t)
    (hgo : t.stopping = false) : t.pipeline = s.pipeline := by
  rw [State.pipeline_eq, State.pipeline_eq]
  generalize hc : s.cp = c at hi
  cases c <;> cases hi
  case w0 =>
    rcases exec_wait1_cases he with ⟨-, -, rfl⟩ | ⟨hq, -, rfl⟩ | ⟨-, -, rfl⟩
    · cases hgo
    · rw [map_contents_pull hs hq]
      exact append_carried _ _ _
    · rfl
  case s0 =>
    rcases exec_waitdl_cases he with ⟨-, -, rfl⟩ | ⟨-, -, rfl⟩ | ⟨-, -, rfl⟩
    · cases hgo
    · rw [State.written_of_no_divisor (s := s) (State.events_of_tr_append rfl) rfl]
      rfl
    · rw [State.written_of_no_divisor (s := s) (State.events_of_tr_append rfl) rfl]
      cases hh : s.halt with
      | true => simp [State.stopping, hh] at hgo
      | false => rfl
  case s1 =>
    rcases exec_setdiv_cases he with ⟨-, rfl⟩ | ⟨-, rfl⟩
    · rw [State.written_append (s := s) (State.events_of_tr_append rfl)]
      have hd := divField_divWord (sourceWidths_of_legal hs.legal) s.held
      simp only [divisorWords, List.filterMap_cons, List.filterMap_nil, List.map_cons, List.map_nil, hd, carriedAt, List.append_nil]
      rfl
    · cases hgo
  case s2 =>
    rcases exec_next_cases he with ⟨hq, rfl⟩ | ⟨-, rfl⟩
    · rw [map_contents_pull hs hq]
      exact append_carried _ _ _
    · cases hgo
  case e1 | e2 | e3 | e4 | e5 =>
    simp only [exec_fselClk, exec_ctlReset, exec_ctlEnable, exec_ctlMode, exec_rdcnt, pinWrite_next, controlWrite_next] at he
    cases he
    rw [State.written_of_no_divisor (s := s) (State.events_of_tr_append rfl) rfl]
    rfl
  case x1 | x2 | x3 => cases he; cases hgo

/-- Another agent can only lengthen the list, by the value it pushed. -/
theorem State.SequencerKept.pipeline (h : s.SequencerKept t) :
    t.pipeline = s.pipeline ∨ ∃ d, t.contents = s.contents ++ [d] ∧ t.pipeline = s.pipeline ++ [divField d] := by
  have hw : t.written = s.written := by rw [State.written, h.events, State.written]
  rw [State.pipeline_eq, State.pipeline_eq, hw, h.held, h.cp]
  rcases h.contents with hc | ⟨d, hc⟩ <;> rw [hc]
  · exact .inl rfl
  · exact .inr ⟨d, rfl, by rw [List.map_append, List.append_assoc, List.append_assoc, List.append_assoc]; rfl⟩

/-- A step into or in the stop sequence writes no divisor. -/
theorem TimedStep.divisorWords_of_stop {p : Params} {cnt nd nd' : Nat} {c c' : ControlPoint} {es : List BusEvent}
    (h : TimedStep p cnt nd c es c' nd') (hc : c' ∈ stopPoints) : divisorWords es = [] := by
  cases h with
  | starting _ _ _ hw | stopping _ hw => exact hw
  | rdcnt | spin | due | next => rfl
  | setdiv => exact absurd hc (by decide)

end Order

/-- Settles O57: the Sequencer's moves pass the divisors on, and those of the other agents append to the queue. -/
theorem divisorsReachTheTargetInOrder : Obligations.DivisorsReachTheTargetInOrder := by
  intro s t hs h
  refine ⟨fun hgo => ?_, fun hstop => ?_⟩
  · obtain ⟨script, turn, ⟨i, hi, he⟩ | hk⟩ := step_moves h
    · exact .inl (exec_keeps_pipeline (s := { s with script := script, turn := turn }) (hs.moved hs.done) hi he hgo)
    · exact State.SequencerKept.pipeline (s := { s with script := script, turn := turn }) hk
  · rcases step_timedStep h with ⟨-, he, -⟩ | ⟨es, ht, he⟩
    · rw [State.written, he, State.written]
    · exact State.written_of_no_divisor he (ht.divisorWords_of_stop (t.stopping_iff.1 hstop))

/-! ## Fair schedules -/

theorem runUnder_add (schedule : Nat → Turn) (k n m : Nat) (s : State) :
    runUnder schedule k (n + m) s = andThen (runUnder schedule k n s) (runUnder schedule (k + n) m) := by
  induction n generalizing k s with
  | zero => rw [Nat.zero_add]; rfl
  | succ n ih =>
    rw [Nat.add_right_comm, runUnder_succ, runUnder_succ]
    cases takeTurn (schedule k) s with
    | next t => rw [andThen_next, andThen_next, ih, Nat.add_right_comm, Nat.add_assoc]
    | fault | refused => rfl

/-- Short of the goal every turn completes, keeps `P` and does not raise the rank, and a helpful turn lowers it. -/
def Progress (P goal : State → Prop) (helpful : Turn → Prop) (rank : State → Nat) : Prop :=
  ∀ s w, P s → ¬ goal s → ∃ t, takeTurn w s = .next t ∧ P t ∧ rank t ≤ rank s ∧ (helpful w → rank t < rank s)

section Fairness
variable {schedule : Nat → Turn} {P goal : State → Prop} {helpful : Turn → Prop} {rank : State → Nat}

/-- By the next helpful turn the rank is lower, or the goal was met before. -/
theorem Progress.lowers (hp : Progress P goal helpful rank) {k d : Nat} {s : State} (hs : P s) (hd : helpful (schedule (k + d))) :
    ∃ n t, runUnder schedule k n s = .next t ∧ P t ∧ (goal t ∨ rank t < rank s) := by
  induction d generalizing k s with
  | zero =>
    by_cases hg : goal s
    · exact ⟨0, s, rfl, hs, .inl hg⟩
    obtain ⟨t, ht, hPt, -, hlt⟩ := hp s (schedule k) hs hg
    exact ⟨1, t, by rw [runUnder_succ, ht]; rfl, hPt, .inr (hlt hd)⟩
  | succ d ih =>
    by_cases hg : goal s
    · exact ⟨0, s, rfl, hs, .inl hg⟩
    obtain ⟨t, ht, hPt, hle, -⟩ := hp s (schedule k) hs hg
    obtain ⟨n, u, hu, hPu, hgu⟩ := ih (k := k + 1) hPt (by rwa [Nat.add_right_comm, Nat.add_assoc])
    exact ⟨n + 1, u, by rw [runUnder_succ, ht, andThen_next, hu], hPu, hgu.imp_right (·.trans_le hle)⟩

/-- A schedule fair to the helpful turns reaches the goal: the rank falls again and again, and cannot for ever (R173). -/
theorem Progress.reaches (hp : Progress P goal helpful rank) (fair : ∀ n, ∃ m, n ≤ m ∧ helpful (schedule m)) (k : Nat) {s : State}
    (hs : P s) : ∃ n t, runUnder schedule k n s = .next t ∧ P t ∧ goal t := by
  induction hr : rank s using Nat.strong_induction_on generalizing k s with
  | _ r ih =>
    obtain ⟨m, hkm, hm⟩ := fair k
    obtain ⟨d, rfl⟩ := Nat.exists_eq_add_of_le hkm
    obtain ⟨n, t, ht, hPt, hg | hlt⟩ := hp.lowers hs hm
    · exact ⟨n, t, ht, hPt, hg⟩
    · obtain ⟨n', u, hu, hgu⟩ := ih _ (hr ▸ hlt) (k + n) hPt rfl
      exact ⟨n + n', u, by rw [runUnder_add, ht, andThen_next, hu], hgu⟩

end Fairness

/-! ## From a set HALT to DONE and PDONE -/

/-- A state with HALT set and seen, under the invariants: its run is coming to its end. -/
structure State.Ending (s : State) : Prop where
  inv : s.Inv
  seen : s.haltSeen = true
  stop : s.StopInv

/-- The turns the Producer needs to stop once HALT is set (R83, R172). -/
def turnsToPdone : ProducerPoint → Nat
  | .p0 => 1
  | .p1 => 2
  | .pdone => 0

/-- A turn of the Producer, whichever of its two steps it takes (R86). -/
def ProducerTurn (w : Turn) : Prop := w = .producer ∨ w = .producerTimeout

section Ending
variable {s t : State} {w : Turn}

theorem State.Ending.turn (h : s.Ending) (ht : takeTurn w s = .next t) : t.Ending where
  inv := takeTurn_keeps_inv h.inv ht
  seen := (takeTurn_grows ht).haltSeen h.seen
  stop := (takeTurn_moves ht).keeps_stopInv h.inv.legal h.stop

theorem State.Ending.halt (h : s.Ending) : s.halt = true := by
  have hseen := h.seen
  simp only [State.haltSeen, Bool.and_eq_true] at hseen
  exact hseen.2

/-- Every turn of the Sequencer is one on the way to DONE (R102). -/
theorem progress_to_done : Progress State.Ending (fun s => s.cp = .done) (· = .sequencer) (fun s => stepsToDone s.cp) := by
  intro s w h hg
  obtain ⟨t, ht⟩ := takeTurn_completes h.inv w
  obtain ⟨hsteps, -⟩ := takeTurn_winds_down h.seen ht
  have hpos : stepsToDone s.cp ≠ 0 := mt (stepsToDone_eq_zero_iff _).1 hg
  refine ⟨t, ht, h.turn ht, hsteps.trans (Nat.sub_le _ _), fun hw => ?_⟩
  rw [if_pos hw] at hsteps
  exact hsteps.trans_lt (Nat.sub_one_lt hpos)

theorem takeTurn_of_done (hc : s.cp = .done) (h : takeTurn w s = .next t) : t.cp = .done := by
  rcases takeTurn_moves h with ⟨i, hi, -⟩ | hk
  · rw [hc] at hi
    cases hi
  · exact hk.cp.trans hc

/-- With HALT set PRODUCE brings the Producer nearer to PDONE: it reads no sample, and what it offers is pushed or dropped (R83). -/
theorem exec_produce_of_halt {late : Bool} (hh : s.halt = true) (hp : s.pcp ≠ .pdone) (h : exec (.produce late) s = .next t) :
    turnsToPdone t.pcp < turnsToPdone s.pcp := by
  have hpos : 0 < turnsToPdone s.pcp := by
    cases hc : s.pcp with
    | p0 | p1 => decide
    | pdone => exact absurd hc hp
  rcases exec_produce_cases h with ⟨hd, -⟩ | ⟨-, -, -, rfl⟩ | ⟨-, rfl⟩ | ⟨-, -, hn, -⟩ | ⟨-, hn, -⟩ | ⟨hp, d, -, -, rfl⟩ |
    ⟨-, -, -, rfl⟩ | ⟨-, -, hn, -⟩
  · exact absurd hd hp
  · exact hpos
  · exact hpos
  · exact absurd (hh.symm.trans hn) (by decide)
  · exact absurd (hh.symm.trans hn) (by decide)
  · rw [hp]
    exact Nat.lt_succ_self _
  · exact hpos
  · exact absurd (hh.symm.trans hn) (by decide)

theorem takeTurn_producer (hw : ProducerTurn w) (hp : s.pcp ≠ .pdone) : ∃ late, takeTurn w s = exec (.produce late) s := by
  obtain ⟨-, -, hprod, -⟩ := turnsRunTheOperationsOfTheirAgents.2 s
  rcases hw with rfl | rfl
  · exact ⟨_, (hprod hp).1⟩
  · exact ⟨_, (hprod hp).2⟩

/-- The Producer's control point is written by the Producer alone (R24). -/
theorem takeTurn_keeps_pcp (hw : ¬ ProducerTurn w) (h : takeTurn w s = .next t) : t.pcp = s.pcp := by
  rcases perform_cases h with rfl | ⟨x, i, hx, hd, he⟩
  · rfl
  cases hx
  cases exec_frame he with
  | conv => exact absurd hd (turnSelector_ne_conv _)
  | produce =>
    cases w with
    | producer => exact absurd (.inl rfl) hw
    | producerTimeout => exact absurd (.inr rfl) hw
    | sequencer => cases Laws.Selection.point_unique _ _ hd
    | counter | haltSource => cases hd
  | push | pull | wait1 | rdcnt | waitdl | setdiv | next | sethalt | enable | fselClk | ctlReset | ctlEnable | ctlMode | disable |
    ctlOff | fselIn | haltreq | tick => rfl

/-- Every turn of the Producer is one on the way to PDONE, and the Sequencer stays at DONE (R98, R172). -/
theorem progress_to_pdone : Progress (fun s => s.Ending ∧ s.cp = .done) (fun s => s.pcp = .pdone) ProducerTurn
    (fun s => turnsToPdone s.pcp) := by
  rintro s w ⟨h, hc⟩ hg
  obtain ⟨t, ht⟩ := takeTurn_completes h.inv w
  refine ⟨t, ht, ⟨h.turn ht, takeTurn_of_done hc ht⟩, ?_⟩
  by_cases hw : ProducerTurn w
  · obtain ⟨late, hl⟩ := takeTurn_producer hw hg
    have hlt := exec_produce_of_halt h.halt hg (hl ▸ ht)
    exact ⟨hlt.le, fun _ => hlt⟩
  · exact ⟨(congrArg turnsToPdone (takeTurn_keeps_pcp hw ht)).le, fun hw' => absurd hw' hw⟩

end Ending

/-! ## From S0 to the deadline -/

/-- The control points at which the Sequencer stays while the deadline is not reached, with those of a stop. -/
def awaitPoints : List ControlPoint := .s0 :: stopPoints

/-- A state on the way to the deadline `s` waits for. -/
structure State.Awaits (s t : State) : Prop where
  inv : t.Inv
  par : t.par = s.par
  nd : t.nd = s.nd
  cp : t.cp ∈ awaitPoints

theorem cw_le_of_legal {p : Params} (h : p.legal = true) : p.cw ≤ 32 := by
  simp only [Params.legal, Bool.and_eq_true, decide_eq_true_eq] at h
  omega

/-- The deadline is reached at the deadline itself (R40). -/
theorem reached_self {cw c : Nat} (hc : c < 2 ^ cw) : reached cw c c = true := by
  rw [reached_iff hc hc, ticksPast_eq hc hc, if_pos le_rfl, Nat.sub_self]
  exact Nat.two_pow_pos _

/-- A tick short of the deadline brings the counter one nearer to it (R39). -/
theorem ticksPast_succ_lt {cw c nd : Nat} (hc : c < 2 ^ cw) (hn : nd < 2 ^ cw) (hne : c ≠ nd) :
    ticksPast cw nd ((c + 1) % 2 ^ cw) < ticksPast cw nd c := by
  rw [ticksPast_eq hn hc, ticksPast_eq hn (Nat.mod_lt _ (Nat.two_pow_pos _))]
  generalize 2 ^ cw = turn at *
  rcases Nat.lt_or_ge (c + 1) turn with h | h
  · rw [Nat.mod_eq_of_lt h]
    split_ifs <;> omega
  · obtain rfl : c + 1 = turn := by omega
    rw [Nat.mod_self]
    split_ifs <;> omega

section Awaits
variable {s t u : State} {w : Turn}

/-- Short of the deadline the Sequencer's step spins or is one of a stop (R94). -/
theorem TimedStep.awaits {p : Params} {cnt nd nd' : Nat} {c c' : ControlPoint} {es : List BusEvent}
    (h : TimedStep p cnt nd c es c' nd') (hc : c ∈ awaitPoints) (hr : reached p.cw (countOf p (BitVec.ofNat 32 cnt)) nd = false) :
    c' ∈ awaitPoints ∧ nd' = nd := by
  cases h with
  | starting hstart => exact absurd hc ((by decide : ∀ c ∈ startPoints, c ∉ awaitPoints) _ hstart)
  | stopping hstop => exact ⟨List.mem_cons_of_mem _ hstop, rfl⟩
  | spin => exact ⟨hc, rfl⟩
  | due hd => exact absurd (hd.symm.trans hr) (by decide)
  | rdcnt | setdiv | next => exact absurd hc (by decide)

/-- The counter is TICK's (R19, R135). -/
theorem takeTurn_keeps_cnt (hw : w ≠ .counter) (h : takeTurn w s = .next t) : t.cnt = s.cnt := by
  rcases perform_cases h with rfl | ⟨x, i, hx, hd, he⟩
  · rfl
  cases hx
  cases exec_frame he with
  | tick =>
    cases w with
    | counter => exact absurd rfl hw
    | producer | producerTimeout => cases eq_produce_of_prodAt hd
    | sequencer => cases Laws.Selection.point_unique _ _ hd
    | haltSource => cases hd
  | push | pull | conv | produce | wait1 | rdcnt | waitdl | setdiv | next | sethalt | enable | fselClk | ctlReset | ctlEnable |
    ctlMode | disable | ctlOff | fselIn | haltreq => rfl

/-- Short of the deadline a turn keeps the Sequencer waiting for it, or stopping. -/
theorem State.Awaits.turn (h : s.Awaits t) (hr : reached t.par.cw t.cnt t.nd = false) (hu : takeTurn w t = .next u) : s.Awaits u := by
  have hinv := takeTurn_keeps_inv h.inv hu
  have hpar := (takeTurn_grows hu).par.trans h.par
  rcases takeTurn_moves hu with ⟨i, hi, he⟩ | hk
  · obtain ⟨es, hstep, -⟩ := exec_timedStep hi he
    obtain ⟨hcp, hnd⟩ := hstep.awaits h.cp (by rwa [countOf_ofNat h.inv.cnt (cw_le_of_legal h.inv.legal)])
    exact ⟨hinv, hpar, hnd.trans h.nd, hcp⟩
  · exact ⟨hinv, hpar, hk.nd.trans h.nd, hk.cp ▸ h.cp⟩

/-- Every turn of the Counter is one on the way to the deadline (R39, R40). -/
theorem progress_to_deadline (s : State) : Progress s.Awaits (fun t => reached s.par.cw t.cnt s.nd = true) (· = .counter)
    (fun t => ticksPast s.par.cw s.nd t.cnt) := by
  intro t w h hg
  obtain ⟨u, hu⟩ := takeTurn_completes h.inv w
  have hcnt := h.par ▸ h.inv.cnt
  have hnd := h.nd ▸ h.par ▸ h.inv.nd
  refine ⟨u, hu, h.turn (by rw [h.par, h.nd]; exact Bool.eq_false_iff.2 hg) hu, ?_⟩
  by_cases hw : w = .counter
  · subst hw
    cases hu
    have hlt : ticksPast s.par.cw s.nd (nextCount t.par t.cnt) < ticksPast s.par.cw s.nd t.cnt := by
      rw [nextCount, h.par]
      exact ticksPast_succ_lt hcnt hnd fun he => hg (he ▸ reached_self hcnt)
    exact ⟨hlt.le, fun _ => hlt⟩
  · exact ⟨(congrArg (ticksPast s.par.cw s.nd) (takeTurn_keeps_cnt hw hu)).le, fun hw' => absurd hw' hw⟩

end Awaits

/-- Settles O59: three ranks, each of which the fair agent lowers and no other agent raises. -/
theorem fairSchedulesMakeProgress : Obligations.FairSchedulesMakeProgress := by
  have ending {s : State} (hi : s.Inv) (hs : s.StopInv) (hf : s.par.haltFirst = true) (hh : s.halt = true) : s.Ending :=
    ⟨hi, by simp [State.haltSeen, hf, hh], hs⟩
  refine ⟨fun schedule s fair hi hs hf hh => ?done, fun schedule s fair hi hs hf hh => ?pdone, fun schedule s fair hi hc => ?deadline⟩
  case done =>
    obtain ⟨n, t, ht, he, hc⟩ := progress_to_done.reaches fair 0 (ending hi hs hf hh)
    exact ⟨n, t, ht, hc, (he.stop.disabled_of_done hc).1⟩
  case pdone =>
    obtain ⟨n, t, ht, he, hc⟩ := progress_to_done.reaches fair.sequencer 0 (ending hi hs hf hh)
    obtain ⟨m, u, hu, ⟨he, hc⟩, hp⟩ := progress_to_pdone.reaches fair.producer (0 + n) ⟨he, hc⟩
    exact ⟨n + m, u, by rw [runUnder_add, ht, andThen_next, hu], hc, (he.stop.disabled_of_done hc).1, hp⟩
  case deadline =>
    obtain ⟨n, t, ht, ha, hr⟩ := (progress_to_deadline s).reaches fair 0 ⟨hi, rfl, rfl, by rw [hc]; decide⟩
    exact ⟨n, t, ht, ha.nd, hr⟩

end Sys2Proof.Machine
end

section
/-! PROOFS. The register writer's family (spec/44_regwriter.md): the pin-function writes (R111, R118), the clock-control writes (R112 to R114,
R117), the composites as whole states with the output they leave (R110, R116, R119), and their idempotence on the shadow (R119). -/

namespace Sys2Proof.Machine

/-! ## The words -/

section Words
variable {p : Params}

theorem pinField_eq_extract (hw : p.fselw = 3) (w : Word) : pinField p w = w.extractLsb' p.pinShift 3 := by
  apply BitVec.eq_of_getLsbD_eq
  intro i hi
  simp [pinField, hw, hi]

/-- A function put into the target field a second time changes nothing (R54). -/
theorem fselWord_fselWord (old : Word) (f : PinFunction) : fselWord p (fselWord p old f) f = fselWord p old f := by
  apply BitVec.eq_of_getLsbD_eq
  intro i hi
  simp only [fselWord, BitVec.getLsbD_or, BitVec.getLsbD_and]
  cases (f.setWidth 32 <<< p.pinShift).getLsbD i with
  | true => rw [Bool.or_true, Bool.or_true]
  | false => rw [Bool.or_false, Bool.or_false, Bool.and_assoc, Bool.and_self]

/-- A control word carries the tag, so the shadow of CLKCTL takes its low bits (R34, R52). -/
theorem taggedWrite_ctlWord {mash reset enab src : Nat} (hp : p.legal = true) (hv : CtlValuesFit p mash reset enab src) (old : Word24) :
    taggedWrite p old (ctlWord p mash reset enab src) = (ctlWord p mash reset enab src).extractLsb' 0 24 := by
  rw [taggedWrite, if_pos (tagOf_ctlWord hp hv), BitVec.setWidth_eq_extractLsb' (by decide)]

theorem ctlEnabBit_lt_of_legal (hp : p.legal = true) : p.ctlEnabBit < 24 := by
  have hl := ctlFieldsLegal_of_legal hp
  simp only [Params.ctlFieldsLegal, (tag_place (sourceWidths_of_legal hp)).1, decide_eq_true_eq] at hl
  obtain ⟨-, -, henab, -⟩ := hl
  exact henab

/-- W_MODE has the enable bit, which lies in the shadow's bits (R52, R59). -/
theorem getLsbD_ctlEnabBit_wMode (hp : p.legal = true) : ((wMode p).extractLsb' 0 24).getLsbD p.ctlEnabBit = true := by
  have hlow := ctlEnabBit_lt_of_legal hp
  have hword : p.ctlEnabBit < 32 := by omega
  have hone : (1#32 <<< p.ctlEnabBit).getLsbD p.ctlEnabBit = true := by simp [hword]
  rw [BitVec.getLsbD_extractLsb', decide_eq_true hlow, Bool.true_and, Nat.zero_add, wMode, ctlWord, BitVec.getLsbD_or, BitVec.getLsbD_or,
    hone, Bool.or_true, Bool.true_or]

end Words

/-! ## The single writes -/

/-- Settles O31: both are the one read-modify-write, whose word has the function in the field and the other bits as read. -/
theorem pinFunctionWritesChangeTheTargetFieldOnly : Obligations.PinFunctionWritesChangeTheTargetFieldOnly := by
  intro s hw hs
  have hfield (f : PinFunction) : (fselWord s.par s.tPinfsel f).extractLsb' s.par.pinShift 3 = f := by
    rw [← pinField_eq_extract hw, pinField_fselWord _ _ _ hw hs]
  have hother (f : PinFunction) (i : Nat) (hi : i < s.par.pinShift ∨ s.par.pinShift + 3 ≤ i) :
      (fselWord s.par s.tPinfsel f).getLsbD i = s.tPinfsel.getLsbD i := getLsbD_fselWord_other _ _ _ hw hi
  exact ⟨⟨_, (exec_fselClk s).trans (pinWrite_next ..), hfield _, hother _⟩,
    ⟨_, (exec_fselIn s).trans (pinWrite_next ..), hfield _, hother _⟩⟩

/-- Settles O32: each is the one write to CLKCTL, of a word that carries the tag. -/
theorem clockControlWritesReplaceTheShadow : Obligations.ClockControlWritesReplaceTheShadow := by
  intro s hp
  refine ⟨?reset, ?enable, ?mode, ?off⟩
  case reset => rw [exec_ctlReset, controlWrite_next, wReset, taggedWrite_ctlWord hp fit_wReset]
  case enable => rw [exec_ctlEnable, controlWrite_next, wEnable, taggedWrite_ctlWord hp fit_wEnable]
  case mode => rw [exec_ctlMode, controlWrite_next, wMode, taggedWrite_ctlWord hp (fit_wMode hp)]
  case off => rw [exec_ctlOff, controlWrite_next, taggedWrite_wOff hp, wOff]

/-! ## The composites -/

/-- The state ENABLE leaves (R110, R119). -/
def State.afterEnable (s : State) : State := { s with
  tr := s.tr ++ s.stamped [.rd .pinfsel s.tPinfsel, .wr .pinfsel (fselWord s.par s.tPinfsel s.par.fselClk),
    .wr .clkctl (wReset s.par), .wr .clkctl (wEnable s.par), .wr .clkctl (wMode s.par)]
  tPinfsel := fselWord s.par s.tPinfsel s.par.fselClk
  tClkctl := (wMode s.par).extractLsb' 0 24
  cp := .e5 }

/-- The state DISABLE leaves (R116, R119). -/
def State.afterDisable (s : State) : State := { s with
  tr := s.tr ++ s.stamped [.wr .clkctl (wOff s.par), .rd .pinfsel s.tPinfsel, .wr .pinfsel (fselWord s.par s.tPinfsel fselIn)]
  tPinfsel := fselWord s.par s.tPinfsel fselIn
  tClkctl := 0#24
  cp := .x3 }

section Composites
variable {s : State}

/-- Of the three words written to CLKCTL the shadow holds the last (R34, R110). -/
theorem exec_enable_next (hp : s.par.legal = true) : exec .enable s = .next s.afterEnable := by
  rw [exec_enable, exec_fselClk, pinWrite_next, andThen_next, exec_ctlReset, controlWrite_next, andThen_next, exec_ctlEnable,
    controlWrite_next, andThen_next, exec_ctlMode, controlWrite_next]
  simp only [State.afterEnable, State.stamped, List.map_cons, List.map_nil, List.append_assoc, List.cons_append, List.nil_append]
  rw [wMode, taggedWrite_ctlWord hp (fit_wMode hp)]

theorem exec_disable_next (hp : s.par.legal = true) : exec .disable s = .next s.afterDisable := by
  rw [exec_disable, exec_ctlOff, controlWrite_next, andThen_next, exec_fselIn, pinWrite_next, taggedWrite_wOff hp, List.append_assoc]
  rfl

theorem outputEnabled_afterEnable (hp : s.par.legal = true) : s.afterEnable.outputEnabled = true := by
  have hpin : pinField s.par (fselWord s.par s.tPinfsel s.par.fselClk) = s.par.fselClk := pinField_fselWord_of_legal hp _ _
  exact Bool.and_eq_true_iff.2 ⟨decide_eq_true hpin, getLsbD_ctlEnabBit_wMode hp⟩

theorem outputDisabled_afterDisable (hp : s.par.legal = true) : s.afterDisable.outputDisabled = true :=
  State.outputDisabled_of_off (pinField_fselWord_of_legal hp _ _) rfl

theorem length_tr_afterEnable : s.afterEnable.tr.length = s.tr.length + 5 := List.length_append

theorem length_tr_afterDisable : s.afterDisable.tr.length = s.tr.length + 3 := List.length_append

end Composites

/-- Settles O33: the state ENABLE leaves is an enabled one. -/
theorem enableWritesInOrderAndEnables : Obligations.EnableWritesInOrderAndEnables :=
  fun _ hp => ⟨_, exec_enable_next hp, outputEnabled_afterEnable hp, rfl⟩

/-- Settles O34: the state DISABLE leaves is a disabled one. -/
theorem disableWritesInOrderAndDisables : Obligations.DisableWritesInOrderAndDisables :=
  fun _ hp => ⟨_, exec_disable_next hp, outputDisabled_afterDisable hp, rfl⟩

/-- Settles O35: CLKCTL takes the same constant again, and the function is put into a PINFSEL word that has it already. -/
theorem enableAndDisableAreIdempotentOnTheShadow : Obligations.EnableAndDisableAreIdempotentOnTheShadow := by
  intro s hp
  have henable : exec .enable s.afterEnable = .next s.afterEnable.afterEnable := exec_enable_next hp
  have hdisable : exec .disable s.afterDisable = .next s.afterDisable.afterDisable := exec_disable_next hp
  exact ⟨⟨_, _, exec_enable_next hp, henable, fselWord_fselWord _ _, rfl, rfl, length_tr_afterEnable, length_tr_afterEnable⟩,
    ⟨_, _, exec_disable_next hp, hdisable, fselWord_fselWord _ _, rfl, rfl, length_tr_afterDisable, length_tr_afterDisable⟩⟩

end Sys2Proof.Machine
end

section
/-! PROOFS. The halt and environment family (spec/45_halt_and_environment.md): HALTREQ and TICK (R130, R135), and the sources of HALT (R131). -/

namespace Sys2Proof.Machine

/-! ## The counter's successor -/

section Count
variable {p : Params} {c : Nat}

theorem nextCount_of_lt (h : c + 1 < 2 ^ p.cw) : nextCount p c = c + 1 := Nat.mod_eq_of_lt h

theorem nextCount_of_last (h : c + 1 = 2 ^ p.cw) : nextCount p c = 0 := by rw [nextCount, h, Nat.mod_self]

end Count

theorem exec_tick (s : State) : exec .tick s = .next { s with cnt := nextCount s.par s.cnt } := rfl

/-- Settles O37: TICK takes the counter's successor, which wraps at its last value only. -/
theorem haltRequestsAndTicksTouchOneElement : Obligations.HaltRequestsAndTicksTouchOneElement := by
  intro s
  refine ⟨rfl, fun h => ?_, fun h => ?_⟩
  · rw [exec_tick, nextCount_of_lt h]
  · rw [exec_tick, nextCount_of_last h]

/-! ## The sources of HALT -/

section Sources
variable {s t : State} {late : Bool}

theorem takeSample_halt (v : Int) (s : State) : (takeSample v s).halt = s.halt := by
  obtain ⟨_, _, _, -, hv⟩ := takeSample_frame v s
  rw [hv]

theorem push_halt (d : Word) (s : State) : (push d s).2.halt = s.halt := by
  obtain ⟨_, _, hq⟩ := push_frame d s
  rw [hq]

/-- Where the timeout step is not both chosen and configured, PRODUCE is the Producer's normal step (R86; log 12). -/
theorem exec_produce_of_not_timeout (hl : ¬ (late = true ∧ s.par.timeoutS.isSome = true)) :
    exec (.produce late) s = exec (.produce false) s := by
  cases late with
  | false => rfl
  | true => exact exec_produce_of_no_timeout (by simpa using hl) true

theorem exec_produce_of_part (hl : ¬ (late = true ∧ s.par.timeoutS.isSome = true)) (hp : s.pcp = .p0) (hh : s.halt = false)
    (hn : s.inp ≠ []) (hb : s.inp.length < s.par.sampleBytes) (he : s.inEndless = false) :
    exec (.produce late) s = .next { s.raise .shortRead with halt := true, pcp := .pdone } := by
  rw [exec_produce_of_not_timeout hl, exec_produce_of_p0 hp, produceRead_of_part hh (readSample_part hb hn he)]

/-- The Producer sets HALT by its timeout and its short read, and in none of its other steps (R85, R86). -/
theorem exec_produce_sets_halt_iff (h : exec (.produce late) s = .next t) (hh : s.halt = false) :
    t.halt = true ↔ (late = true ∧ s.par.timeoutS.isSome = true ∧ s.pcp ≠ .pdone) ∨
      (¬ (late = true ∧ s.par.timeoutS.isSome = true) ∧ s.pcp = .p0 ∧
        s.inp ≠ [] ∧ s.inp.length < s.par.sampleBytes ∧ s.inEndless = false) := by
  constructor
  · intro ht
    have unset {P : Prop} (e : t.halt = s.halt) : P := absurd (ht.symm.trans (e.trans hh)) (by decide)
    rcases exec_produce_cases h with ⟨-, rfl⟩ | ⟨hp, hl, hc, -⟩ | ⟨-, rfl⟩ | ⟨hp, hl, -, ⟨hn, hb⟩, he, -⟩ |
      ⟨-, -, v, inp, inPos, rfl⟩ | ⟨-, d, -, -, rfl⟩ | ⟨-, -, -, rfl⟩ | ⟨-, -, -, rfl⟩
    · exact unset rfl
    · exact .inl ⟨hl, hc, hp⟩
    · exact unset rfl
    · exact .inr ⟨hl, hp, hn, hb, he⟩
    · exact unset (takeSample_halt v _)
    · exact unset (push_halt d s)
    · exact unset rfl
    · exact unset rfl
  · rintro (⟨rfl, hc, hp⟩ | ⟨hl, hp, hn, hb, he⟩)
    · rw [exec_produce_of_timeout hc hp] at h
      cases h
      rfl
    · rw [exec_produce_of_part hl hp hh hn hb he] at h
      cases h
      rfl

end Sources

/-- Settles O38: by the table of ownership only HALTREQ, SETHALT and PRODUCE write HALT, and the first two always set it. -/
theorem haltIsSetByExactlyTheListedSources : Obligations.HaltIsSetByExactlyTheListedSources := by
  intro i s t h hh
  cases exec_frame h with
  | haltreq | sethalt => simp
  | produce => simpa [and_assoc] using exec_produce_sets_halt_iff h hh
  | push | pull | conv | wait1 | rdcnt | waitdl | setdiv | next | enable | fselClk | ctlReset | ctlEnable | ctlMode | disable | ctlOff
    | fselIn | tick => simp [hh]

end Sys2Proof.Machine
end

section
/-! PROOFS. The exception family (spec/60_exceptions.md): the causes for which the Sequencer's step leaves for X1 (R140, R143, R146). -/

namespace Sys2Proof.Machine

/-- The Sequencer's step outside the stop sequence: it goes on and faults nothing; or for a cause it stops with the trace alone lengthened,
no write in it, and for DivisorRange with the fault alone (R140, R143, R146). -/
inductive StopStep (s : State) : State → Prop
  | goes {t} (hn : stopCause s = none) (hc : t.cp ≠ .x1) (hf : t.faults = s.faults) : StopStep s t
  | stops {c es} (hs : stopCause s = some c) (hc : c ≠ .divisorRange) (hw : busWrites es = []) :
    StopStep s { s with tr := s.tr ++ s.stamped es, cp := .x1 }
  | faults (hs : stopCause s = some .divisorRange) : StopStep s (s.raise (.divisorRange s.held)).enterStop

section Stops
variable {s t : State}

/-- A stop without an event. -/
theorem StopStep.silent {c : StopCause} (hs : stopCause s = some c) (hc : c ≠ .divisorRange) : StopStep s { s with cp := .x1 } := by
  simpa [State.stamped] using StopStep.stops (es := []) hs hc rfl

/-- At W0: HALT, unless it comes after data and there is some (R91; log 9). -/
theorem exec_wait1_stopStep (hp : s.cp = .w0) (h : exec .wait1 s = .next t) : StopStep s t := by
  rcases exec_wait1_cases h with ⟨hh, hc, rfl⟩ | ⟨hc, hh, rfl⟩ | ⟨hh, -, rfl⟩
  · exact .silent (c := .haltBeforeStart) (by rcases hc with hc | hc <;> simp [stopCause, hp, hh, hc]) nofun
  · exact .goes (by simpa [stopCause, hp, hc.ne', Bool.and_comm] using hh) nofun rfl
  · exact .goes (by simp [stopCause, hp, hh]) nofun rfl

/-- At S0: HALT, unless it comes after the deadline and that is reached (R94; log 9). -/
theorem exec_waitdl_stopStep (hp : s.cp = .s0) (h : exec .waitdl s = .next t) : StopStep s t := by
  rcases exec_waitdl_cases h with ⟨hh, hf, rfl⟩ | ⟨hh, hr, rfl⟩ | ⟨-, hr, rfl⟩
  · exact .silent (c := .haltWhileStreaming) (by simp [stopCause, hp, hh, hf]) nofun
  · exact .goes (by simpa [stopCause, hp, hr, Bool.and_comm] using hh) nofun rfl
  · by_cases hh : s.halt = true
    · rw [if_pos hh]
      exact .stops (c := .haltWhileStreaming) (by simp [stopCause, hp, hh, hr]) nofun rfl
    · rw [if_neg hh]
      exact .goes (by simp [stopCause, hp, hh]) nofun rfl

/-- At S1: a divisor out of range (R95, R143). -/
theorem exec_setdiv_stopStep (hp : s.cp = .s1) (h : exec .setdiv s = .next t) : StopStep s t := by
  rcases exec_setdiv_cases h with ⟨hr, rfl⟩ | ⟨hr, rfl⟩
  · exact .goes (by simp [stopCause, hp, hr]) nofun rfl
  · exact .faults (by simp [stopCause, hp, hr])

/-- At S2: an empty queue (R96). -/
theorem exec_next_stopStep (hp : s.cp = .s2) (h : exec .next s = .next t) : StopStep s t := by
  rcases exec_next_cases h with ⟨hc, rfl⟩ | ⟨hc, rfl⟩
  · exact .goes (by simp [stopCause, hp, hc.ne']) nofun rfl
  · exact .silent (c := .underflow) (by simp [stopCause, hp, hc]) nofun

/-- Of the control points outside the stop sequence W0, S0, S1 and S2 have a cause each, E1 to E5 none (R92, R140). -/
theorem exec_stopStep {i : Instr} (hgo : s.stopping = false) (hi : decodePoint s.cp = .ok i) (h : exec i s = .next t) :
    StopStep s t := by
  cases hp : s.cp <;> rw [hp] at hi <;> cases hi
  case w0 => exact exec_wait1_stopStep hp h
  case s0 => exact exec_waitdl_stopStep hp h
  case s1 => exact exec_setdiv_stopStep hp h
  case s2 => exact exec_next_stopStep hp h
  case e1 | e2 | e3 | e4 | e5 =>
    simp only [exec_fselClk, exec_ctlReset, exec_ctlEnable, exec_ctlMode, exec_rdcnt, pinWrite_next, controlWrite_next] at h
    cases h
    exact .goes (by simp only [stopCause, hp]) nofun rfl
  case x1 | x2 | x3 => simp [State.stopping, hp] at hgo

theorem takeTurn_sequencer_stopStep (hgo : s.stopping = false) (h : takeTurn .sequencer s = .next t) : StopStep s t := by
  rw [takeTurn_sequencer] at h
  split at h
  · exact exec_stopStep hgo ‹_› h
  · simp [State.stopping, eq_done_of_decodePoint_error ‹_›] at hgo

end Stops

/-- Settles O51: the step goes on, stops, or stops with the fault. -/
theorem theSequencerStopsForTheFourCausesOnly : Obligations.TheSequencerStopsForTheFourCausesOnly := by
  intro s hgo
  obtain ⟨t, ht⟩ := takeTurn_sequencer_completes s
  refine ⟨t, ht, ?_⟩
  cases takeTurn_sequencer_stopStep hgo ht with
  | goes hn hc hf => simp [hn, hc, hf]
  | @stops c es hs hc hw =>
    refine ⟨by simp [hs], fun _ => ⟨rfl, rfl, rfl, rfl, rfl, ?_⟩, fun _ => rfl, fun hd => ?_⟩
    · rw [State.events_of_tr_append (s := s) rfl, busWrites_append, hw, List.append_nil]
    · exact absurd (Option.some.inj (hs.symm.trans hd)) hc
  | faults hs =>
    exact ⟨by simp [hs], fun _ => ⟨rfl, rfl, rfl, rfl, rfl, rfl⟩, fun hd => absurd hs hd,
      fun _ f => s.mem_raise_faults (.divisorRange s.held) f⟩

end Sys2Proof.Machine
end
